-- ==== Sys2Proof/Word.lean ====
section
/-! DEFINITION. The word types of the BCEG unit (00_scope.md R6, R8): bits are numbered from the least significant. -/

namespace Sys2Proof

/-- A command word, CMD_W = 32 bits (R6, R45); also the width of a status register (R22) and of BITPOS. -/
abbrev Word := BitVec 32

/-- One buffer byte (R31, R38). -/
abbrev Byte := BitVec 8

/-- The argument field of a command word, ARG_W = 24 bits (R6, R45); also the width of LEN. -/
abbrev Arg := BitVec 24

/-- The opcode field of a command word, OP_W = 8 bits (R6, R45). -/
abbrev Opcode := BitVec 8

/-- A response value, VAL_W = 64 bits (R6, R19). -/
abbrev Value := BitVec 64

end Sys2Proof
end

