-- ==== Sys2Proof/Syntax.lean ====
section
/-! DEFINITION. The command set of the BCEG unit, one constructor per row of spec/opcode_table.json
(30_encoding.md R48). Every constructor carries the word's ARG field, the form-"none" commands too: decoding returns
"(command of R48 row op, arg)" for all thirteen (R51). -/

namespace Sys2Proof

inductive Instr where
  /-- R58: construct a cursor over a buffer of `len` bytes. -/
  | init (len : Arg)
  /-- R59: read the byte at the current byte position. -/
  | readbyte (ignored : Arg)
  /-- R60: read `n` bits. -/
  | readbits (n : Arg)
  /-- R61: read the first `n` bits of the current byte as flags. -/
  | readflags (n : Arg)
  /-- R62: advance 8 bits. -/
  | skipbyte (ignored : Arg)
  /-- R63: advance `n` bits. -/
  | skipbits (n : Arg)
  /-- R65: skip leading zero bits and the 1 bit that ends them. -/
  | skiplz (ignored : Arg)
  /-- R69: decode one Exp-Golomb code number. -/
  | readcodenum (ignored : Arg)
  /-- R70: ue(v). -/
  | readue (ignored : Arg)
  /-- R71: se(v). -/
  | readse (ignored : Arg)
  /-- R73: the truncated code number, declared and undefined. -/
  | readtcodenum (max : Arg)
  /-- R74: me(v), declared and undefined. -/
  | readme (context : Arg)
  /-- R75: te(v), declared and undefined. -/
  | readte (max : Arg)
deriving DecidableEq, Repr

/-- The operand forms of R47. -/
inductive Form where
  | L | N | M | X
  /-- ARG is ignored (R49). -/
  | bare
deriving DecidableEq, Repr

end Sys2Proof
end

