-- ==== Sys2Proof/WellFormed.lean ====
section
/-! DEFINITION. The fields of a command and when it is well formed: when some line of the assembly language
(30_encoding.md R52) denotes it. The DECODER asks for less: it takes any ARG of a form-"none" word (R49, R51). -/

namespace Sys2Proof

/-- The ARG field of the command's word (R45). -/
def Instr.arg : Instr → Arg
  | .init a => a
  | .readbyte a => a
  | .readbits a => a
  | .readflags a => a
  | .skipbyte a => a
  | .skipbits a => a
  | .skiplz a => a
  | .readcodenum a => a
  | .readue a => a
  | .readse a => a
  | .readtcodenum a => a
  | .readme a => a
  | .readte a => a

/-- The operand form of R47, and the third column of R48. -/
def Instr.form : Instr → Form
  | .init _ => .L
  | .readbyte _ => .bare
  | .readbits _ => .N
  | .readflags _ => .N
  | .skipbyte _ => .bare
  | .skipbits _ => .N
  | .skiplz _ => .bare
  | .readcodenum _ => .bare
  | .readue _ => .bare
  | .readse _ => .bare
  | .readtcodenum _ => .M
  | .readme _ => .X
  | .readte _ => .M

/-- R52: a form-"none" command has no operand in the assembly language, and its ARG is 0. Every other ARG is a legal
operand; an out-of-range width is not an encoding error (R47), so no other check stands here. -/
def Instr.wellFormed (i : Instr) : Bool :=
  match i.form with
  | .bare => i.arg == 0
  | .L | .N | .M | .X => true

end Sys2Proof
end

