-- ==== Sys2Proof/Decode.lean ====
section
/-! DEFINITION. Decoding a command word (30_encoding.md R45 to R51), total over all 2^32 words, and the encoder.
A command word is one 32-bit number on the port `cmd_word`; it is not stored in memory and has no byte order (log 12). -/

namespace Sys2Proof

/-- Why a word is no command. -/
inductive DecodeError where
  /-- R50: OP is 0x00 or 0x0E .. 0xFF. The unit answers status IllegalCommand (R78, code 5). -/
  | illegalCommand
deriving DecidableEq, Repr

/-- R45: OP is `cmd_word[7:0]`. -/
def opField (w : Word) : Opcode := w.extractLsb' 0 8

/-- R45, R47: ARG is `cmd_word[31:8]`, unsigned. -/
def argField (w : Word) : Arg := w.extractLsb' 8 24

/-- R51, over the rows of R48. -/
def decode (w : Word) : Except DecodeError Instr :=
  match (opField w).toNat with
  | 0x01 => .ok (.init (argField w))
  | 0x02 => .ok (.readbyte (argField w))
  | 0x03 => .ok (.readbits (argField w))
  | 0x04 => .ok (.readflags (argField w))
  | 0x05 => .ok (.skipbyte (argField w))
  | 0x06 => .ok (.skipbits (argField w))
  | 0x07 => .ok (.skiplz (argField w))
  | 0x08 => .ok (.readcodenum (argField w))
  | 0x09 => .ok (.readue (argField w))
  | 0x0A => .ok (.readse (argField w))
  | 0x0B => .ok (.readtcodenum (argField w))
  | 0x0C => .ok (.readme (argField w))
  | 0x0D => .ok (.readte (argField w))
  | _ => .error .illegalCommand

/-- The OP column of R48. -/
def Instr.opcode : Instr → Opcode
  | .init _ => 0x01
  | .readbyte _ => 0x02
  | .readbits _ => 0x03
  | .readflags _ => 0x04
  | .skipbyte _ => 0x05
  | .skipbits _ => 0x06
  | .skiplz _ => 0x07
  | .readcodenum _ => 0x08
  | .readue _ => 0x09
  | .readse _ => 0x0A
  | .readtcodenum _ => 0x0B
  | .readme _ => 0x0C
  | .readte _ => 0x0D

/-- R45: ARG above OP. -/
def encode (i : Instr) : Word := (i.arg ++ i.opcode : BitVec (24 + 8))

/-- The command in the table's row word: bit 0 of `w` is bit 0 of `cmd_word`, and every bit above `nbits` is 0. -/
def tableWord (nbits w : Nat) : Word := BitVec.ofNat 32 (w % 2 ^ nbits)

/-- The instruction the decoder reads from a word of `nbits` bits numbered as spec/opcode_table.json numbers them. -/
def decodeTableWord (nbits w : Nat) : Option Instr :=
  match decode (tableWord nbits w) with
  | .ok i => some i
  | .error _ => none

end Sys2Proof
end

