-- ==== Sys2Proof/Config.lean ====
section
/-! DEFINITION. What the platform fixes and the spec leaves OPEN (00_scope.md R6): BUF_BASE and ADDR_W.
The fixed parameters MAX_ADV and MAX_LZ stand in Machine/Operands.lean. LAT is not a number here: the inputs of
Machine/State.lean say edge by edge whether a command in flight waits (R99). N_INST is the length of a list of
units (Machine/System.lean). The spec leaves no VALUE open that a command computes, so there is no free value. -/

namespace Sys2Proof

/-- The OPEN parameters of the buffer read port (R6, R39; 93 P1, P2). They are plain data inside `State` that no
step changes, so a statement about every state is a statement about every platform. -/
structure Platform where
  /-- BUF_BASE: the system address of buffer byte 0. -/
  bufBase : Nat
  /-- ADDR_W: the width in bits of a system address. -/
  addrW   : Nat
deriving DecidableEq, Repr

/-- R6: ADDR_W is at least 24. -/
abbrev Platform.wf (p : Platform) : Prop := 24 ≤ p.addrW

/-- The platform `State.reset` stands on. DESIGN CHOICE (log 1): R6 leaves both numbers OPEN. -/
def Platform.chosen : Platform := { bufBase := 0, addrW := 32 }

end Sys2Proof
end

