-- ==== Sys2Proof/Machine/State.lean ====
section
/-! DEFINITION. The state of one BCEG unit (10_state.md R12, R25), the platform around it (its memory and the OPEN
parameters) and the port inputs still to come, all as plain data. -/

namespace Sys2Proof.Machine

/-- The system memory behind the buffer read port (20_memory.md R31, R38): a list of (address, byte) in the one
canonical form `Memory.wf` of Machine/Ops.lean. -/
abbrev Memory := List Host.Cell

/-- The input ports at one rising edge of `clk` (R30), and what the platform does before it. -/
structure EdgeIn where
  /-- `rst` (R88). -/
  rst        : Bool := false
  /-- `cmd_valid` (R91). -/
  cmdValid   : Bool := false
  /-- `cmd_word` (R45, R91). -/
  cmdWord    : Word := 0
  /-- `rsp_ready` (R92). -/
  rspReady   : Bool := false
  /-- `stat_addr` (R22): it selects what the status port shows and changes nothing. -/
  statAddr   : BitVec 3 := 0
  /-- LAT has not passed: the command in flight, whatever it is, does not complete at this edge (R99; log 9). -/
  stall      : Bool := false
  /-- `buf_rd_valid` stays 0: the platform has not answered a buffer read by this edge, so a command in flight that
  needs a buffer bit does not complete (R38; log 9). -/
  unanswered : Bool := false
  /-- The bytes the host or the platform writes to its memory before this edge (R43, R90; log 8), in order. -/
  writes     : List Host.Cell := []
deriving DecidableEq, Repr

/-- The errors a command can fail with (60_exceptions.md R78, codes 1 to 5; the numbers are in Machine/Flags.lean). -/
inductive ErrorKind where
  | endOfStream | invalidArgument | invalidState | unimplemented | illegalCommand
deriving DecidableEq, Repr

structure State where
  /-- BITPOS (R12, R13). BYTEPOS and BITINBYTE are views of it (R14). -/
  bitpos     : BitVec 32
  /-- LEN (R12, R15). -/
  len        : BitVec 24
  /-- RSP_STATUS (R12, R18). -/
  rspStatus  : BitVec 3
  /-- RSP_VALUE (R12, R19). -/
  rspValue   : BitVec 64
  /-- RSP_VALID (R12, R20). -/
  rspValid   : Bool
  /-- BUSY (R12, R21). -/
  busy       : Bool
  /-- The command in flight (R25, R54): the word latched when the command was accepted. It counts while BUSY = 1. -/
  cmdLatch   : Word
  /-- The system memory, an input of the unit (R12, R31). -/
  mem        : Memory
  /-- BUF_BASE and ADDR_W (R6, R39). No step changes it. -/
  platform   : Platform
  /-- The port inputs of the coming edges, soonest first. -/
  inputs     : List EdgeIn
  /-- The port inputs at every edge after those: what the host and the platform go on doing for ever (log 4). A
  platform that never answers (R38) and a host that never takes a response (R92) stand here. -/
  rest       : EdgeIn
  /-- The model's own bookkeeping, no register of the unit: a byte of the attached buffer was written since the INIT
  or reset that began this cursor's lifetime (R43, R95; log 8). -/
  bufChanged : Bool
deriving DecidableEq, Repr

/-- How the machine stops with a fault: it never does. No command faults (R82: an error is only a response), and a
buffer read cannot fail (R38). The type is closed and has no constructor. -/
inductive Fault where
deriving DecidableEq, Repr

inductive Refusal where
  /-- Raised by an arm of `exec` that has no meaning yet. Safe: nothing is claimed of the instruction. -/
  | notModelled (mnemonic : String)
  /-- Raised by `step`, never by a command's meaning: the command that completes examines the buffer, and the buffer
  was written since the cursor was attached. What the unit then returns "is not specified by this spec" (R95), and a
  model "says nothing of runs in which the buffer changes" (R43; 93 P7: refuse). Safe. -/
  | bufferChanged
deriving DecidableEq, Repr

/-- The machine right after reset (R28, R88), with no input waiting and quiet ports after. The six registers of R12 are as R28 gives them.
The latch, the empty memory and the platform's numbers are the model's: log 1, 2 and 3. -/
def State.reset : State where
  bitpos     := 0
  len        := 0
  rspStatus  := 0
  rspValue   := 0
  rspValid   := false
  busy       := false
  cmdLatch   := 0
  mem        := []
  platform   := Platform.chosen
  inputs     := []
  rest       := {}
  bufChanged := false

end Sys2Proof.Machine
end

