-- ==== Sys2Proof/Machine/Flags.lean ====
section
/-! DEFINITION. The unit's one condition code, RSP_STATUS (10_state.md R18): its code numbers (60_exceptions.md R78). -/

namespace Sys2Proof.Machine

/-- R78, code 0: the command succeeded. -/
def statusOK : BitVec 3 := 0

/-- R78, codes 1 to 5. -/
def ErrorKind.code : ErrorKind → BitVec 3
  | .endOfStream => 1
  | .invalidArgument => 2
  | .invalidState => 3
  | .unimplemented => 4
  | .illegalCommand => 5

end Sys2Proof.Machine
end

