-- ==== Sys2Proof/Machine/Operands.lean ====
section
/-! DEFINITION. Operands and results: the fixed limits (00_scope.md R6), ARG as a number (30_encoding.md R47), the width
check (40_bit_cursor.md R56), the signed map of se(v) (41_exp_golomb.md R71) and the packing of results (R10). -/

namespace Sys2Proof.Machine

/-- R6: MAX_ADV, the largest advance one width-taking cursor command may request. -/
def maxAdv : Nat := 32

/-- R6: MAX_LZ, the largest leading-zero count for which an Exp-Golomb suffix is read. -/
def maxLz : Nat := 32

/-- R56: the limit of READFLAGS, the bits of one byte. -/
def maxFlags : Nat := 8

/-- R47: ARG is always zero-extended, never scaled or sign-extended. -/
def argNat (a : Arg) : Nat := a.toNat

/-- R56: the width check passes when `0 < n` and `n` is at most the command's limit. -/
def widthOK (n limit : Nat) : Bool := decide (n ≠ 0 ∧ n ≤ limit)

/-- R10: `zext_64`, for the value of a response. -/
def zext64 (v : Nat) : Value := BitVec.ofNat 64 v

/-- R10: `twos_64`. -/
def twos64 (v : Int) : Value := BitVec.ofInt 64 v

/-- R71: an odd code number is positive, an even one zero or negative. -/
def signedOfCodeNum (c : Nat) : Int :=
  if c % 2 = 1 then (((c + 1) / 2 : Nat) : Int) else -((c / 2 : Nat) : Int)

end Sys2Proof.Machine
end

