-- ==== Sys2Proof/Machine/Ops.lean ====
section
/-! DEFINITION. The named operations over memory, the cursor and the registers, and what happens at a clock edge:
memory cells, the buffer and its bits (20_memory.md), the bound check and the leading-zero scan (40_bit_cursor.md R57,
R64), the code-number decode (41_exp_golomb.md R68), completing a command (R55), failing one (60_exceptions.md R77: the
unit's whole exception mechanism, with no return, R82, R83), and accepting, taking and reset (R91, R92, R88). -/

namespace Sys2Proof.Machine

/-! ### Memory: cells in one canonical form -/

/-- What an address that no cell lists reads as. DESIGN CHOICE (log 2): the contents are the platform's (R12, R28). -/
def Memory.unlisted : Byte := 0

/-- The canonical form: addresses strictly rising, and no cell that says what an unlisted address reads as. -/
abbrev Memory.wf (m : Memory) : Prop :=
  m.Pairwise (fun c d => c.1 < d.1) ∧ ∀ c ∈ m, c.2 ≠ Memory.unlisted

/-- One byte read at a system address (R10, R38). -/
def Memory.read : Memory → Nat → Byte
  | [], _ => Memory.unlisted
  | (a, b) :: m, x => if a = x then b else Memory.read m x

/-- Put a cell in its place among rising addresses, replacing the one that stood there. -/
def Memory.put (x : Nat) (v : Byte) : Memory → Memory
  | [] => [(x, v)]
  | (a, b) :: m =>
    if x < a then (x, v) :: (a, b) :: m
    else if x = a then (x, v) :: m
    else (a, b) :: Memory.put x v m

/-- One byte written by the platform or the host. The unit itself never writes (R32). -/
def Memory.write (m : Memory) (x : Nat) (v : Byte) : Memory :=
  if v = Memory.unlisted then m.filter (fun c => c.1 ≠ x) else Memory.put x v m

/-! ### The cursor: views of BITPOS and LEN -/

/-- R14: BYTEPOS is BITPOS[31:3]. -/
def State.bytepos (s : State) : Nat := (s.bitpos.extractLsb' 3 29).toNat

/-- R14: BITINBYTE is BITPOS[2:0]. -/
def State.bitinbyte (s : State) : Nat := (s.bitpos.extractLsb' 0 3).toNat

/-- The number of stream bits in the attached buffer, 8·LEN. -/
def State.bitLen (s : State) : Nat := 8 * s.len.toNat

/-- R39: BUF_BASE + a, added in ADDR_W bits (log 13). -/
def bufAddr (p : Platform) (a : Nat) : Nat := (p.bufBase + a) % 2 ^ p.addrW

/-- R10: BUF(a), the byte of buffer index a. -/
def State.buf (s : State) (a : Nat) : Byte := s.mem.read (bufAddr s.platform a)

/-- R9, R34: stream bit p, the most significant bit of a byte first. -/
def State.bitAt (s : State) (p : Nat) : Bool := (s.buf (p / 8)).getLsbD (7 - p % 8)

/-- R10: Bits(p, n), the first bit read the most significant. -/
def State.bits (s : State) (p : Nat) : Nat → Nat
  | 0 => 0
  | n + 1 => 2 * s.bits p n + (s.bitAt (p + n)).toNat

/-- R57: the n stream bits from p on all lie inside the buffer. -/
def State.avail (s : State) (p n : Nat) : Bool := decide (p + n ≤ s.bitLen)

/-- The scan of R64 over the next `left` stream bits. -/
def State.scan (s : State) : Nat → Nat → Option Nat
  | _, 0 => none
  | p, left + 1 => if s.bitAt p then some 0 else (s.scan (p + 1) left).map (· + 1)

/-- R64: LZ(p), the zeros before the first 1 bit from p on, if there is one before the end of the buffer. -/
def State.lz (s : State) (p : Nat) : Option Nat := s.scan p (s.bitLen - p)

/-- R68: CodeNum(p), the code number and the code's length, or the error it raises. -/
def State.codeNum (s : State) (p : Nat) : Except ErrorKind (Nat × Nat) :=
  match s.lz p with
  | none => .error .endOfStream
  | some k =>
    if k = 0 then .ok (0, 1)
    else if maxLz < k then .error .invalidArgument
    else if s.avail (p + k + 1) k then .ok (2 ^ k - 1 + s.bits (p + k + 1) k, 2 * k + 1)
    else .error .endOfStream

/-! ### Writing registers, and the end of a command -/

/-- BITPOS <- p. -/
def State.setBitpos (s : State) (p : Nat) : State := { s with bitpos := BitVec.ofNat 32 p }

/-- The registers INIT writes (R58). A new cursor's lifetime begins (R43). -/
def State.attach (s : State) (len : Arg) : State := { s with len := len, bitpos := 0, bufChanged := false }

/-- R55: the completion edge. -/
def State.respond (s : State) (status : BitVec 3) (v : Value) : State :=
  { s with rspStatus := status, rspValue := v, rspValid := true, busy := false }

/-- R77: the command fails. BITPOS and LEN keep their values, and the value is 0. -/
def State.raise (s : State) (e : ErrorKind) : State := s.respond e.code 0

/-- A successful command that moves the cursor to `p` and leaves value `v`. -/
def State.advance (s : State) (p : Nat) (v : Value) : State := (s.setBitpos p).respond statusOK v

/-! ### Clock edges -/

/-- The inputs at the coming edge: the first that waits, and with none waiting those of `rest`. There `stall` does not
count, because LAT is finite (R6, R99). DESIGN CHOICE (log 4). -/
def State.edge (s : State) : EdgeIn :=
  match s.inputs with
  | [] => { s.rest with stall := false }
  | e :: _ => e

/-- The edge has passed. -/
def State.popEdge (s : State) : State := { s with inputs := s.inputs.tail }

/-- The buffer index whose address is `x`, for an address of ADDR_W bits (R39). -/
def bufIndex (p : Platform) (x : Nat) : Nat := (x + (2 ^ p.addrW - p.bufBase % 2 ^ p.addrW)) % 2 ^ p.addrW

/-- Is `x` the system address of a byte of the attached buffer (R39)? -/
def State.inBuffer (s : State) (x : Nat) : Bool := decide (x < 2 ^ s.platform.addrW ∧ bufIndex s.platform x < s.len.toNat)

/-- The platform or the host writes one byte of its memory; a write to the attached buffer is noted (R43, R95; log 8). -/
def State.platformWrite (s : State) (c : Host.Cell) : State :=
  { s with mem := s.mem.write c.1 c.2, bufChanged := s.bufChanged || s.inBuffer c.1 }

/-- All the writes before one edge, in order. -/
def State.platformWrites (s : State) (cs : List Host.Cell) : State := cs.foldl State.platformWrite s

/-- R30, R91: `cmd_ready` while `rst` = 0. -/
def State.ready (s : State) : Bool := !s.busy && !s.rspValid

/-- R54, R91: accept the word on the command port. -/
def State.accept (s : State) (w : Word) : State := { s with cmdLatch := w, busy := true }

/-- R92: the host takes the response. -/
def State.takeResponse (s : State) : State := { s with rspValid := false }

/-- R88: an edge with `rst` = 1. Every register takes its value of R28, and a command in flight is abandoned. The
memory, the platform and the inputs still to come are not the unit's. -/
def State.resetRegisters (s : State) : State :=
  { State.reset with mem := s.mem, platform := s.platform, inputs := s.inputs, rest := s.rest }

/-- An edge with `rst` = 0 and no command in flight: a response that waits is taken or kept (R92); otherwise an
offered word is accepted (R91). -/
def State.idleEdge (s : State) (e : EdgeIn) : State :=
  if s.rspValid then (if e.rspReady then s.takeResponse else s)
  else if e.cmdValid then s.accept e.cmdWord
  else s

/-! ### Which stream bits a command examines -/

/-- The bits CodeNum(p) examines, counted from p (R38, R68). -/
def State.codeBits (s : State) (p : Nat) : Nat :=
  match s.lz p with
  | none => s.bitLen - p
  | some k => if k = 0 ∨ maxLz < k then k + 1 else if s.avail (p + k + 1) k then 2 * k + 1 else k + 1

/-- The first stream bit a command examines and how many it examines (R33, R38: the table's second column, and none
where an earlier check has failed). -/
def State.examined (s : State) : Instr → Nat × Nat
  | .init _ => (0, 0)
  | .readbyte _ => if s.bytepos < s.len.toNat then (8 * s.bytepos, 8) else (0, 0)
  | .readbits n =>
    if widthOK (argNat n) maxAdv && s.avail s.bitpos.toNat (argNat n) then (s.bitpos.toNat, argNat n) else (0, 0)
  | .readflags n =>
    if widthOK (argNat n) maxFlags && s.bitinbyte == 0 && decide (s.bytepos < s.len.toNat)
    then (8 * s.bytepos, argNat n) else (0, 0)
  | .skipbyte _ => (0, 0)
  | .skipbits _ => (0, 0)
  | .skiplz _ =>
    (s.bitpos.toNat, match s.lz s.bitpos.toNat with | none => s.bitLen - s.bitpos.toNat | some z => z + 1)
  | .readcodenum _ => (s.bitpos.toNat, s.codeBits s.bitpos.toNat)
  | .readue _ => (s.bitpos.toNat, s.codeBits s.bitpos.toNat)
  | .readse _ => (s.bitpos.toNat, s.codeBits s.bitpos.toNat)
  | .readtcodenum _ => (0, 0)
  | .readme _ => (0, 0)
  | .readte _ => (0, 0)

/-- The command needs a buffer bit, so it makes a buffer read (R33, R38). -/
def State.readsBuffer (s : State) (i : Instr) : Bool := (s.examined i).2 != 0

/-- R43, R95: the command needs a buffer bit, and the buffer was written during this cursor's lifetime. -/
def State.readsChangedBuffer (s : State) (i : Instr) : Bool := s.bufChanged && s.readsBuffer i

/-- The command in flight makes a buffer read. An illegal word performs nothing (R54). -/
def State.commandReads (s : State) : Bool :=
  match decode s.cmdLatch with
  | .error _ => false
  | .ok i => s.readsBuffer i

/-- The command in flight does not complete at an edge with the inputs `e`: LAT has not passed (R99), or it waits for a
buffer read that the platform has not answered (R38). -/
def State.waits (s : State) (e : EdgeIn) : Bool := e.stall || (e.unanswered && s.commandReads)

end Sys2Proof.Machine
end

