-- ==== Sys2Proof/Machine/BitCursor.lean ====
section
/-! DEFINITION. The Bit Cursor commands (40_bit_cursor.md R58 to R65), one definition each. -/

namespace Sys2Proof.Machine

/-- R58: INIT. -/
def execInit (len : Arg) (s : State) : Host.Outcome State Fault Refusal :=
  .next ((s.attach len).respond statusOK 0)

/-- R59: READBYTE. -/
def execReadbyte (_ignored : Arg) (s : State) : Host.Outcome State Fault Refusal :=
  if s.len.toNat ≤ s.bytepos then .next (s.raise .endOfStream)
  else .next (s.advance (s.bitpos.toNat + 8) (zext64 (s.buf s.bytepos).toNat))

/-- R60: READBITS n. -/
def execReadbits (n : Arg) (s : State) : Host.Outcome State Fault Refusal :=
  if ¬widthOK (argNat n) maxAdv then .next (s.raise .invalidArgument)
  else if ¬s.avail s.bitpos.toNat (argNat n) then .next (s.raise .endOfStream)
  else .next (s.advance (s.bitpos.toNat + argNat n) (zext64 (s.bits s.bitpos.toNat (argNat n))))

/-- R61: READFLAGS n; the value is b[7 : 8-n], and BITPOS moves by n, not by 8. -/
def execReadflags (n : Arg) (s : State) : Host.Outcome State Fault Refusal :=
  if ¬widthOK (argNat n) maxFlags then .next (s.raise .invalidArgument)
  else if s.bitinbyte ≠ 0 then .next (s.raise .invalidState)
  else if s.len.toNat ≤ s.bytepos then .next (s.raise .endOfStream)
  else .next (s.advance (s.bitpos.toNat + argNat n) (zext64 ((s.buf s.bytepos).toNat / 2 ^ (8 - argNat n))))

/-- R62: SKIPBYTE. -/
def execSkipbyte (_ignored : Arg) (s : State) : Host.Outcome State Fault Refusal :=
  if ¬s.avail s.bitpos.toNat 8 then .next (s.raise .endOfStream)
  else .next (s.advance (s.bitpos.toNat + 8) 0)

/-- R63: SKIPBITS n. -/
def execSkipbits (n : Arg) (s : State) : Host.Outcome State Fault Refusal :=
  if ¬widthOK (argNat n) maxAdv then .next (s.raise .invalidArgument)
  else if ¬s.avail s.bitpos.toNat (argNat n) then .next (s.raise .endOfStream)
  else .next (s.advance (s.bitpos.toNat + argNat n) 0)

/-- R65: SKIPLZ. -/
def execSkiplz (_ignored : Arg) (s : State) : Host.Outcome State Fault Refusal :=
  match s.lz s.bitpos.toNat with
  | none => .next (s.raise .endOfStream)
  | some z => .next (s.advance (s.bitpos.toNat + z + 1) (zext64 z))

end Sys2Proof.Machine
end

