-- ==== Sys2Proof/Machine/ExpGolomb.lean ====
section
/-! DEFINITION. The Exp-Golomb Decoder commands (41_exp_golomb.md R69 to R75), one definition each. -/

namespace Sys2Proof.Machine

/-- R69: READCODENUM. -/
def execReadcodenum (_ignored : Arg) (s : State) : Host.Outcome State Fault Refusal :=
  match s.codeNum s.bitpos.toNat with
  | .error e => .next (s.raise e)
  | .ok (c, len) => .next (s.advance (s.bitpos.toNat + len) (zext64 c))

/-- R70: READUE, "the same as READCODENUM (rule R69), line for line". -/
def execReadue (_ignored : Arg) (s : State) : Host.Outcome State Fault Refusal :=
  match s.codeNum s.bitpos.toNat with
  | .error e => .next (s.raise e)
  | .ok (c, len) => .next (s.advance (s.bitpos.toNat + len) (zext64 c))

/-- R71: READSE. -/
def execReadse (_ignored : Arg) (s : State) : Host.Outcome State Fault Refusal :=
  match s.codeNum s.bitpos.toNat with
  | .error e => .next (s.raise e)
  | .ok (c, len) => .next (s.advance (s.bitpos.toNat + len) (twos64 (signedOfCodeNum c)))

/-- R73: READTCODENUM always fails; its operand is accepted and not used. -/
def execReadtcodenum (_max : Arg) (s : State) : Host.Outcome State Fault Refusal :=
  .next (s.raise .unimplemented)

/-- R74: README always fails; its operand is accepted and not used. -/
def execReadme (_context : Arg) (s : State) : Host.Outcome State Fault Refusal :=
  .next (s.raise .unimplemented)

/-- R75: READTE always fails; its operand is accepted and not used. -/
def execReadte (_max : Arg) (s : State) : Host.Outcome State Fault Refusal :=
  .next (s.raise .unimplemented)

end Sys2Proof.Machine
end

