-- ==== Sys2Proof/Machine/Dispatch.lean ====
section
/-! DEFINITION. One arm per command. -/

namespace Sys2Proof.Machine

def exec (i : Instr) (s : State) : Host.Outcome State Fault Refusal :=
  match i with
  | .init len => Sys2Proof.Machine.execInit len s
  | .readbyte ignored => Sys2Proof.Machine.execReadbyte ignored s
  | .readbits n => Sys2Proof.Machine.execReadbits n s
  | .readflags n => Sys2Proof.Machine.execReadflags n s
  | .skipbyte ignored => Sys2Proof.Machine.execSkipbyte ignored s
  | .skipbits n => Sys2Proof.Machine.execSkipbits n s
  | .skiplz ignored => Sys2Proof.Machine.execSkiplz ignored s
  | .readcodenum ignored => Sys2Proof.Machine.execReadcodenum ignored s
  | .readue ignored => Sys2Proof.Machine.execReadue ignored s
  | .readse ignored => Sys2Proof.Machine.execReadse ignored s
  | .readtcodenum max => Sys2Proof.Machine.execReadtcodenum max s
  | .readme context => Sys2Proof.Machine.execReadme context s
  | .readte max => Sys2Proof.Machine.execReadte max s

end Sys2Proof.Machine
end

