-- ==== Sys2Proof/Machine/Edge.lean ====
section
/-! DEFINITION. A clock edge as a whole, over the operations of Machine/Ops.lean: reset (70_reset_and_hazards.md R88),
completing the command in flight (40_bit_cursor.md R54, R55) and the handshakes (R91, R92). A command in flight is
served before a response (log 10). -/

namespace Sys2Proof.Machine

/-- R54: decode, perform and respond. An illegal word performs nothing and fails with IllegalCommand (R50). -/
def completeCommand (s : State) : Host.Outcome State Fault Refusal :=
  match decode s.cmdLatch with
  | .error _ => .next (s.raise .illegalCommand)
  | .ok i => if s.readsChangedBuffer i then .refused .bufferChanged else exec i s

/-- An edge at which the input ports hold `e`, from the state `s` with the writes before the edge already made. -/
def clockEdge (e : EdgeIn) (s : State) : Host.Outcome State Fault Refusal :=
  if e.rst then .next s.resetRegisters
  else if s.busy then (if s.waits e then .next s else completeCommand s)
  else .next (s.idleEdge e)

/-- The state a fetched word runs in: the word accepted and in flight, no response waiting, quiet input ports and no
write to the buffer outstanding. -/
def State.inFlight (s : State) (w : Word) : State :=
  { s with cmdLatch := w, busy := true, rspValid := false, inputs := [], rest := {}, bufChanged := false }

end Sys2Proof.Machine
end

