-- ==== Sys2Proof/Machine/Step.lean ====
section
/-! DEFINITION. One step is one rising edge of `clk` (10_state.md R30). The unit fetches no instructions (R16): the
command it performs is the word latched when the host's command was accepted (40_bit_cursor.md R54). -/

namespace Sys2Proof.Machine

/-- One clock edge: the platform's writes, then the edge. -/
def step (s : State) : Host.Outcome State Fault Refusal :=
  clockEdge s.edge (s.popEdge.platformWrites s.edge.writes)

/-- `s` with the table's word `w` in flight: all that the next step needs to perform exactly that command (log 5). -/
def State.withFetchWord (s : State) (nbits w : Nat) : State := s.inFlight (tableWord nbits w)

end Sys2Proof.Machine
end

