-- ==== Sys2Proof/Machine/Assembler.lean ====
section
/-! DEFINITION. The assembly language of the command set (30_encoding.md R52): one line of text, as a list of
characters, to one command word, and back. The points R52 leaves open are in log 7. -/

namespace Sys2Proof.Machine

/-- Why a line is an assembly error; no word is emitted for it (R52). -/
inductive AsmError where
  | noCommand | unknownMnemonic | missingOperand | unexpectedOperand | badLiteral | operandRange | tooManyOperands
deriving DecidableEq, Repr

/-- The mnemonic column of R48. -/
def mnemonic (i : Instr) : List Char :=
  match i with
  | .init _ => ['I', 'N', 'I', 'T']
  | .readbyte _ => ['R', 'E', 'A', 'D', 'B', 'Y', 'T', 'E']
  | .readbits _ => ['R', 'E', 'A', 'D', 'B', 'I', 'T', 'S']
  | .readflags _ => ['R', 'E', 'A', 'D', 'F', 'L', 'A', 'G', 'S']
  | .skipbyte _ => ['S', 'K', 'I', 'P', 'B', 'Y', 'T', 'E']
  | .skipbits _ => ['S', 'K', 'I', 'P', 'B', 'I', 'T', 'S']
  | .skiplz _ => ['S', 'K', 'I', 'P', 'L', 'Z']
  | .readcodenum _ => ['R', 'E', 'A', 'D', 'C', 'O', 'D', 'E', 'N', 'U', 'M']
  | .readue _ => ['R', 'E', 'A', 'D', 'U', 'E']
  | .readse _ => ['R', 'E', 'A', 'D', 'S', 'E']
  | .readtcodenum _ => ['R', 'E', 'A', 'D', 'T', 'C', 'O', 'D', 'E', 'N', 'U', 'M']
  | .readme _ => ['R', 'E', 'A', 'D', 'M', 'E']
  | .readte _ => ['R', 'E', 'A', 'D', 'T', 'E']

/-- The rows of R48, each as the command of its ARG. -/
def commandRows : List (Arg → Instr) :=
  [.init, .readbyte, .readbits, .readflags, .skipbyte, .skipbits, .skiplz, .readcodenum, .readue, .readse,
   .readtcodenum, .readme, .readte]

/-- R52: a mnemonic is accepted in any letter case. -/
def findCommand (m : List Char) : Option (Arg → Instr) :=
  commandRows.find? (fun c => mnemonic (c 0) == m.map Char.toUpper)

/-- What separates the parts of a line. -/
def isBlank (c : Char) : Bool := c == ' ' || c == '\t'

/-- The parts of a line; `part` is the one being read, its last character first. -/
def lineParts (part : List Char) : List Char → List (List Char)
  | [] => if part.isEmpty then [] else [part.reverse]
  | c :: cs =>
    if isBlank c then (if part.isEmpty then lineParts [] cs else part.reverse :: lineParts [] cs)
    else lineParts (c :: part) cs

/-- The sixteen digits, as the disassembler prints them: in capitals. -/
def hexDigits : List Char := ['0', '1', '2', '3', '4', '5', '6', '7', '8', '9', 'A', 'B', 'C', 'D', 'E', 'F']

/-- One printed digit. -/
def digitChar (d : Nat) : Char := hexDigits.getD d '0'

/-- The value of a digit in either letter case: its place among the digits. -/
def digitValue (c : Char) : Option Nat := hexDigits.idxOf? c.toUpper

/-- The value of a row of digits after the digits that make `acc`. -/
def digitsValue (base acc : Nat) : List Char → Option Nat
  | [] => some acc
  | c :: cs =>
    match digitValue c with
    | some d => if d < base then digitsValue base (acc * base + d) cs else none
    | none => none

/-- R52: a decimal literal or a `0x`-prefixed hexadecimal literal. -/
def literalValue : List Char → Option Nat
  | [] => none
  | '0' :: 'x' :: c :: cs => digitsValue 16 0 (c :: cs)
  | c :: cs => digitsValue 10 0 (c :: cs)

/-- A literal below `limit`. -/
def literalBelow (limit : Nat) (x : List Char) : Except AsmError Nat :=
  match literalValue x with
  | none => .error .badLiteral
  | some v => if v < limit then .ok v else .error .operandRange

/-- R52: the directive `.word`. -/
def wordDirective : List Char := ['.', 'w', 'o', 'r', 'd']

/-- R52: one line, `MNEMONIC [operand] [; comment]` or `.word <literal>`. The range of a width is not checked. -/
def assembleLine (line : List Char) : Except AsmError Word :=
  match lineParts [] (line.takeWhile (· != ';')) with
  | [] => .error .noCommand
  | [m] =>
    if m = wordDirective then .error .missingOperand
    else match findCommand m with
      | none => .error .unknownMnemonic
      | some c => if (c 0).form = .bare then .ok (encode (c 0)) else .error .missingOperand
  | [m, x] =>
    if m = wordDirective then (literalBelow (2 ^ 32) x).map (BitVec.ofNat 32)
    else match findCommand m with
      | none => .error .unknownMnemonic
      | some c =>
        if (c 0).form = .bare then .error .unexpectedOperand
        else (literalBelow (2 ^ 24) x).map (fun v => encode (c (BitVec.ofNat 24 v)))
  | _ => .error .tooManyOperands

/-- A program, one command per line: its words in order, or the first line's error. -/
def assemble : List (List Char) → Except AsmError (List Word)
  | [] => .ok []
  | l :: ls =>
    match assembleLine l with
    | .error e => .error e
    | .ok w =>
      match assemble ls with
      | .error e => .error e
      | .ok ws => .ok (w :: ws)

/-- The decimal digits of a number below 10 ^ `places`, without leading zeros. -/
def decimal : Nat → Nat → List Char
  | 0, _ => []
  | places + 1, n => if n < 10 then [digitChar n] else decimal places (n / 10) ++ [digitChar (n % 10)]

/-- The last `places` hexadecimal digits of a number. -/
def hexadecimal : Nat → Nat → List Char
  | 0, _ => []
  | places + 1, n => hexadecimal places (n / 16) ++ [digitChar (n % 16)]

/-- R52: a word printed as `.word 0xXXXXXXXX`. -/
def wordLine (w : Word) : List Char := wordDirective ++ ' ' :: '0' :: 'x' :: hexadecimal 8 w.toNat

/-- R52: a command printed as its mnemonic, and its ARG in decimal where its form has an operand. -/
def commandLine (i : Instr) : List Char :=
  if i.form = .bare then mnemonic i else mnemonic i ++ ' ' :: decimal 8 i.arg.toNat

/-- R52: an illegal OP, or a form-"none" word with ARG ≠ 0, is printed as a word. -/
def disassemble (w : Word) : List Char :=
  match decode w with
  | .error _ => wordLine w
  | .ok i => if i.wellFormed then commandLine i else wordLine w

end Sys2Proof.Machine
end

