-- ==== Sys2Proof/Machine/Ports.lean ====
section
/-! DEFINITION. What the host and the platform see: the output ports (10_state.md R30), the status register map (R22,
R23) and the addresses the buffer read port may name (20_memory.md R33, R38). -/

namespace Sys2Proof.Machine

/-- R22: status register 2. -/
def State.statusWord (s : State) : Word :=
  (0 : BitVec 26) ++ (BitVec.ofBool s.busy ++ (BitVec.ofBool s.rspValid ++ ((0 : BitVec 1) ++ s.rspStatus)))

/-- R22, R23: `stat_rdata`, a function of `stat_addr` and the registers. Numbers 5, 6 and 7 read 0. -/
def State.statRdata (s : State) (n : BitVec 3) : Word :=
  match n.toNat with
  | 0 => s.bitpos
  | 1 => s.len.setWidth 32
  | 2 => s.statusWord
  | 3 => s.rspValue.extractLsb' 0 32
  | 4 => s.rspValue.extractLsb' 32 32
  | _ => 0

/-- The output ports towards the host. -/
structure PortsOut where
  cmdReady  : Bool
  rspValid  : Bool
  rspStatus : BitVec 3
  rspValue  : Value
  statRdata : Word
deriving DecidableEq, Repr

/-- R30, and R88: "While `rst` = 1, `cmd_ready` = 0 and `rsp_valid` = 0" (log 6). -/
def State.outputs (s : State) (e : EdgeIn) : PortsOut where
  cmdReady  := !e.rst && s.ready
  rspValid  := !e.rst && s.rspValid
  rspStatus := s.rspStatus
  rspValue  := s.rspValue
  statRdata := s.statRdata e.statAddr

/-- R33, R38: while it performs `i`, the unit may drive `buf_addr` = `x`: the system address of a byte that holds a
stream bit the command examines. Which of these it asks for, how often and in what order is unspecified. -/
def State.mayRequest (s : State) (i : Instr) (x : Nat) : Prop :=
  ∃ j < (s.examined i).2, x = bufAddr s.platform (((s.examined i).1 + j) / 8)

end Sys2Proof.Machine
end

