-- ==== Sys2Proof/Machine/System.lean ====
section
/-! DEFINITION. A system of N_INST independent units (00_scope.md R6, 60_exceptions.md R86), as the list of their
states. Units share no state. Their buffer memory is read-only, so units over one memory hold equal copies of it; a
host's write to memory that several units read stands in the inputs of each of them (log 11). -/

namespace Sys2Proof.Machine

/-- One edge of unit `k`; its response and its stop are its own. A number that names no unit changes nothing. -/
def stepUnit (units : List State) (k : Nat) : Host.Outcome (List State) Fault Refusal :=
  match units[k]? with
  | none => .next units
  | some s =>
    match step s with
    | .next t => .next (units.set k t)
    | .fault r => .fault r
    | .refused r => .refused r

end Sys2Proof.Machine
end

