-- ==== Sys2Proof/Safety.lean ====
section
/-! DEFINITION. The terms the claims use: the invariant of every run (10_state.md R27, R12), what the buffer holds, the
Exp-Golomb code of a number (41_exp_golomb.md R67) and the conditions of the error table (60_exceptions.md R79). -/

namespace Sys2Proof.Machine

/-- What holds in every reachable state. -/
structure State.Inv (s : State) : Prop where
  /-- R27: BITPOS ≤ 8·LEN + 7. -/
  bitposInRange : s.bitpos.toNat ≤ 8 * s.len.toNat + 7
  /-- R22: RSP_STATUS is 0 .. 5; 6 and 7 never occur. -/
  statusLegal : s.rspStatus.toNat ≤ 5
  /-- R19, R77: a failing command leaves the value 0. -/
  errorLeavesZero : s.rspStatus ≠ 0 → s.rspValue = 0
  /-- R20, R54: no command is in flight while a response waits. -/
  notBusyAndValid : ¬(s.busy = true ∧ s.rspValid = true)
  /-- The memory is in its canonical form. -/
  memCanonical : s.mem.wf
  /-- R6: ADDR_W is at least 24. -/
  addrWide : s.platform.wf

/-- The state an edge acts on: the edge's inputs taken, the writes before it made. -/
def State.atEdge (s : State) : State := s.popEdge.platformWrites s.edge.writes

/-- The stream bits from `p` on are the bits `l`, all inside the buffer. -/
def State.holds (s : State) (p : Nat) (l : List Bool) : Prop :=
  p + l.length ≤ 8 * s.len.toNat ∧ ∀ i (h : i < l.length), s.bitAt (p + i) = l[i]

/-- R64: `z` zeros stand from `p` on, then a 1 bit inside the buffer: LZ(p) = z. -/
def State.firstOneAfter (s : State) (p z : Nat) : Prop :=
  p + z < 8 * s.len.toNat ∧ s.bitAt (p + z) = true ∧ ∀ j < z, s.bitAt (p + j) = false

/-- R64: no 1 bit stands from `p` to the end of the buffer: LZ(p) = NONE. -/
def State.noOneFrom (s : State) (p : Nat) : Prop := ∀ q, p ≤ q → q < 8 * s.len.toNat → s.bitAt q = false

/-- R67: the `k` suffix bits of the number `x`, most significant first. -/
def suffixBits (k x : Nat) : List Bool := (List.range k).map (fun i => x.testBit (k - 1 - i))

/-- R67: the Exp-Golomb code of `v`: with k = floor(log2(v+1)), k zeros, a 1, and v + 1 - 2^k in k bits. -/
def expGolombCode (v : Nat) : List Bool :=
  List.replicate (Nat.log2 (v + 1)) false ++ true :: suffixBits (Nat.log2 (v + 1)) (v + 1 - 2 ^ Nat.log2 (v + 1))

/-- A command that reads or skips stream bits, with a width the width check passes (R56, R89). -/
def readsOrSkips : Instr → Prop
  | .readbits n => 1 ≤ n.toNat ∧ n.toNat ≤ 32
  | .skipbits n => 1 ≤ n.toNat ∧ n.toNat ≤ 32
  | .readflags n => 1 ≤ n.toNat ∧ n.toNat ≤ 8
  | .readbyte _ | .skipbyte _ | .skiplz _ | .readcodenum _ | .readue _ | .readse _ => True
  | .init _ | .readtcodenum _ | .readme _ | .readte _ => False

/-- R79, the column InvalidArgument. -/
def State.invalidArgumentWhen (s : State) : Instr → Prop
  | .readbits n => n.toNat = 0 ∨ 32 < n.toNat
  | .readflags n => n.toNat = 0 ∨ 8 < n.toNat
  | .skipbits n => n.toNat = 0 ∨ 32 < n.toNat
  | .readcodenum _ => ∃ k, s.firstOneAfter s.bitpos.toNat k ∧ 32 < k
  | .readue _ => ∃ k, s.firstOneAfter s.bitpos.toNat k ∧ 32 < k
  | .readse _ => ∃ k, s.firstOneAfter s.bitpos.toNat k ∧ 32 < k
  | .init _ | .readbyte _ | .skipbyte _ | .skiplz _ | .readtcodenum _ | .readme _ | .readte _ => False

/-- R79, the column InvalidState. -/
def State.invalidStateWhen (s : State) : Instr → Prop
  | .readflags _ => s.bitpos.toNat % 8 ≠ 0
  | .init _ | .readbyte _ | .readbits _ | .skipbyte _ | .skipbits _ | .skiplz _ | .readcodenum _ | .readue _ | .readse _
  | .readtcodenum _ | .readme _ | .readte _ => False

/-- R79, the last row but one of the column EndOfStream: no 1 bit, or a suffix the buffer's end cuts off. -/
def State.codeRunsOut (s : State) : Prop :=
  s.noOneFrom s.bitpos.toNat ∨
    ∃ k, s.firstOneAfter s.bitpos.toNat k ∧ 1 ≤ k ∧ 8 * s.len.toNat < s.bitpos.toNat + 2 * k + 1

/-- R79, the column EndOfStream. -/
def State.endOfStreamWhen (s : State) : Instr → Prop
  | .readbyte _ => s.len.toNat ≤ s.bitpos.toNat / 8
  | .readbits n => 8 * s.len.toNat < s.bitpos.toNat + n.toNat
  | .readflags _ => s.len.toNat ≤ s.bitpos.toNat / 8
  | .skipbyte _ => 8 * s.len.toNat < s.bitpos.toNat + 8
  | .skipbits n => 8 * s.len.toNat < s.bitpos.toNat + n.toNat
  | .skiplz _ => s.noOneFrom s.bitpos.toNat
  | .readcodenum _ => s.codeRunsOut
  | .readue _ => s.codeRunsOut
  | .readse _ => s.codeRunsOut
  | .init _ | .readtcodenum _ | .readme _ | .readte _ => False

/-- R79, the column Unimplemented. -/
def unimplementedWhen : Instr → Prop
  | .readtcodenum _ | .readme _ | .readte _ => True
  | .init _ | .readbyte _ | .readbits _ | .readflags _ | .skipbyte _ | .skipbits _ | .skiplz _ | .readcodenum _
  | .readue _ | .readse _ => False

end Sys2Proof.Machine
end

