-- ==== Sys2Proof/Certificates/Slice0/Obligations.lean ====
section
/-! DEFINITION. The statements for the provers. BITPOS is `s.bitpos`, 8·LEN is `8 * s.len.toNat`, one buffer byte is
`s.buf a` and one stream bit `s.bitAt p`. A result is written as the whole next state, so that it is its own frame. -/

open Sys2Proof Sys2Proof.Machine

/-! ### Encoding (30_encoding.md) -/

/-- R45, R48, R51: the decoder reads back every command, with every value of its ARG. -/
def Obligations.DecodeOfEncodeIsTheCommand : Prop := ∀ i : Instr, decode (encode i) = .ok i

/-- R45, R51: no bit of a legal word is lost; the word of the decoded command is the word. -/
def Obligations.EncodeOfDecodeIsTheWord : Prop := ∀ (w : Word) (i : Instr), decode w = .ok i → encode i = w

/-- R51: decoding is total. OP 0x01 to 0x0D gives the command of that row with ARG = w[31:8]; any other OP is illegal. -/
def Obligations.DecodingIsTotal : Prop :=
  ∀ w : Word,
    (1 ≤ w.toNat % 256 ∧ w.toNat % 256 ≤ 13 →
      ∃ i, decode w = .ok i ∧ i.opcode.toNat = w.toNat % 256 ∧ i.arg.toNat = w.toNat / 256) ∧
    (w.toNat % 256 = 0 ∨ 14 ≤ w.toNat % 256 → decode w = .error .illegalCommand)

/-- R48, R52: words written out from the spec. -/
def Obligations.SpecWordsDecode : Prop :=
  decode 0x00000201 = .ok (.init 2) ∧ decode 0xABCDEF02 = .ok (.readbyte 0xABCDEF) ∧
  decode 0x00000503 = .ok (.readbits 5) ∧ decode 0x00000304 = .ok (.readflags 3) ∧
  decode 0x00000005 = .ok (.skipbyte 0) ∧ decode 0x00000D06 = .ok (.skipbits 13) ∧
  decode 0x00000007 = .ok (.skiplz 0) ∧ decode 0x00000008 = .ok (.readcodenum 0) ∧
  decode 0x00000009 = .ok (.readue 0) ∧ decode 0x0000000A = .ok (.readse 0) ∧
  decode 0x0000070B = .ok (.readtcodenum 7) ∧ decode 0x0000030C = .ok (.readme 3) ∧
  decode 0xFFFFFF0D = .ok (.readte 0xFFFFFF) ∧
  decode 0x00000000 = .error .illegalCommand ∧ decode 0x0000000E = .error .illegalCommand ∧
  decode 0xFFFFFFFF = .error .illegalCommand

/-- R49: the six commands of form "none" behave the same whatever their ARG. -/
def Obligations.IgnoredArgChangesNothing : Prop :=
  ∀ (a : Arg) (s : State),
    exec (.readbyte a) s = exec (.readbyte 0) s ∧ exec (.skipbyte a) s = exec (.skipbyte 0) s ∧
    exec (.skiplz a) s = exec (.skiplz 0) s ∧ exec (.readcodenum a) s = exec (.readcodenum 0) s ∧
    exec (.readue a) s = exec (.readue 0) s ∧ exec (.readse a) s = exec (.readse 0) s

/-! ### The assembly language (R52) -/

/-- R52: disassembling a word, legal or not, and assembling the line reproduces the word. -/
def Obligations.AssembleOfDisassembleIsTheWord : Prop := ∀ w : Word, assembleLine (disassemble w) = .ok w

/-- R52: the line of every command that has one assembles to its word, out-of-range widths included, and the assembler
rejects a missing operand, an operand on a form-"none" mnemonic, and an operand above 2^24 - 1. -/
def Obligations.AssemblerEmitsTheEncoding : Prop :=
  (∀ i : Instr, i.wellFormed = true → assembleLine (commandLine i) = .ok (encode i)) ∧
  (∀ i : Instr, i.form ≠ .bare → assembleLine (mnemonic i) = .error .missingOperand) ∧
  (∀ (i : Instr) (n : Nat), n < 10 ^ 12 → i.form = .bare →
    assembleLine (mnemonic i ++ ' ' :: decimal 12 n) = .error .unexpectedOperand) ∧
  (∀ (i : Instr) (n : Nat), 2 ^ 24 ≤ n → n < 10 ^ 12 → i.form ≠ .bare →
    assembleLine (mnemonic i ++ ' ' :: decimal 12 n) = .error .operandRange)

/-! ### State, status registers and ports (10_state.md) -/

/-- R28: the registers after reset; a command is awaited. In every state with BITPOS and LEN at their reset values every
read or skip of a legal width fails with EndOfStream, which leaves both as they are. -/
def Obligations.ResetRegisterValues : Prop :=
  State.reset.bitpos = 0 ∧ State.reset.len = 0 ∧ State.reset.rspStatus = 0 ∧ State.reset.rspValue = 0 ∧
  State.reset.rspValid = false ∧ State.reset.busy = false ∧ State.reset.ready = true ∧
  (∀ n, State.reset.statRdata n = 0) ∧
  ∀ (i : Instr) (s : State), s.bitpos = State.reset.bitpos → s.len = State.reset.len → readsOrSkips i →
    exec i s = .next { s with rspStatus := 1, rspValue := 0, rspValid := true, busy := false }

/-- R14: BYTEPOS and BITINBYTE are fields of BITPOS, and a write of BITPOS changes both. -/
def Obligations.BytePosAndBitInByteAreViews : Prop :=
  (∀ s : State, s.bytepos = (s.bitpos.extractLsb' 3 29).toNat ∧ s.bytepos = s.bitpos.toNat / 8 ∧
    s.bitinbyte = (s.bitpos.extractLsb' 0 3).toNat ∧ s.bitinbyte = s.bitpos.toNat % 8) ∧
  ∀ (s : State) (p : Nat), p < 2 ^ 32 → (s.setBitpos p).bytepos = p / 8 ∧ (s.setBitpos p).bitinbyte = p % 8

/-- R22: the fields of the five status registers, bit by bit; a field marked "hardwired 0" reads 0. -/
def Obligations.StatusRegisterFields : Prop :=
  ∀ s : State,
    (s.statRdata 0 = s.bitpos) ∧
    ((s.statRdata 1).extractLsb' 0 24 = s.len ∧ (s.statRdata 1).extractLsb' 24 8 = 0) ∧
    ((s.statRdata 2).extractLsb' 0 3 = s.rspStatus ∧ (s.statRdata 2).getLsbD 3 = false ∧
      (s.statRdata 2).getLsbD 4 = s.rspValid ∧ (s.statRdata 2).getLsbD 5 = s.busy ∧
      (s.statRdata 2).extractLsb' 6 26 = 0) ∧
    (s.statRdata 4 ++ s.statRdata 3 = (s.rspValue : BitVec (32 + 32)))

/-- R23: status registers 5, 6 and 7 read 0. Reading any status register has no side effect: a step is the same
whatever `stat_addr` is. -/
def Obligations.ReservedStatusRegistersReadZero : Prop :=
  (∀ s : State, s.statRdata 5 = 0 ∧ s.statRdata 6 = 0 ∧ s.statRdata 7 = 0) ∧
  ∀ (s : State) (e : EdgeIn) (es : List EdgeIn) (n : BitVec 3),
    step { s with inputs := { e with statAddr := n } :: es } = step { s with inputs := e :: es }

/-- R30, R88, R91: the handshake outputs. `cmd_ready` is NOT BUSY AND NOT RSP_VALID, and both are 0 while `rst` = 1. -/
def Obligations.HandshakeOutputs : Prop :=
  ∀ (s : State) (e : EdgeIn),
    ((s.outputs e).cmdReady = true ↔ e.rst = false ∧ s.busy = false ∧ s.rspValid = false) ∧
    ((s.outputs e).rspValid = true ↔ e.rst = false ∧ s.rspValid = true) ∧
    (s.outputs e).rspStatus = s.rspStatus ∧ (s.outputs e).rspValue = s.rspValue ∧
    (s.outputs e).statRdata = s.statRdata e.statAddr

/-! ### The buffer (20_memory.md) -/

/-- R9, R34, R39: stream bit p is bit 7 - (p mod 8) of the byte at system address BUF_BASE + p div 8, added in ADDR_W
bits. -/
def Obligations.StreamBitOfTheBuffer : Prop :=
  ∀ (s : State) (a j : Nat), j < 8 →
    s.bitAt (8 * a + j) = (s.mem.read ((s.platform.bufBase + a) % 2 ^ s.platform.addrW)).getLsbD (7 - j)

/-- R35: READBITS 16 at a byte boundary 8a returns BUF(a)·256 + BUF(a+1). -/
def Obligations.TwoBytesReadBigEndian : Prop :=
  ∀ (s : State) (a : Nat), s.bitpos.toNat = 8 * a → a + 2 ≤ s.len.toNat →
    exec (.readbits 16) s = .next { s with
      bitpos := BitVec.ofNat 32 (8 * a + 16), rspStatus := 0,
      rspValue := BitVec.ofNat 64 ((s.buf a).toNat * 256 + (s.buf (a + 1)).toNat), rspValid := true, busy := false }

/-- R33: a command asks for bytes of buffer indices below LEN only. -/
def Obligations.RequestsStayInsideTheBuffer : Prop :=
  ∀ (s : State) (i : Instr) (x : Nat), s.mayRequest i x → ∃ a < s.len.toNat, x = bufAddr s.platform a

/-- R38, the table of bits examined: a reading command that succeeds advances by as many bits as it examines, but for
READBYTE, which examines the whole byte BYTEPOS. -/
def Obligations.AdvanceIsTheBitsExamined : Prop :=
  ∀ (s t : State) (i : Instr), exec i s = .next t → t.rspStatus = 0 →
    (∀ a, i = .readbyte a → s.examined i = (8 * (s.bitpos.toNat / 8), 8) ∧ t.bitpos.toNat = s.bitpos.toNat + 8) ∧
    ((∃ a, i = .readbits a ∨ i = .readflags a ∨ i = .skiplz a ∨ i = .readcodenum a ∨ i = .readue a ∨ i = .readse a) →
      (s.examined i).1 = s.bitpos.toNat ∧ t.bitpos.toNat = s.bitpos.toNat + (s.examined i).2) ∧
    ((∃ a, i = .init a ∨ i = .skipbyte a ∨ i = .skipbits a) → (s.examined i).2 = 0)

/-- R41 (4), R76, R33: the response and the new BITPOS depend on BITPOS, LEN, the command and the stream bits it
examines, and on nothing else: not on earlier responses, the handshake, the platform or any other byte of memory. -/
def Obligations.ResultDependsOnExaminedBitsOnly : Prop :=
  ∀ (i : Instr) (s t : State), s.bitpos = t.bitpos → s.len = t.len →
    (∀ j < (s.examined i).2, s.bitAt ((s.examined i).1 + j) = t.bitAt ((s.examined i).1 + j)) →
    ∃ s' t', exec i s = .next s' ∧ exec i t = .next t' ∧
      s'.bitpos = t'.bitpos ∧ s'.len = t'.len ∧ s'.rspStatus = t'.rspStatus ∧ s'.rspValue = t'.rspValue

/-! ### Bit Cursor commands (40_bit_cursor.md) -/

/-- R58: INIT L sets LEN = L and BITPOS = 0 in any state and always succeeds with value 0. It reads no byte. After
INIT 0 every read or skip of a legal width fails with EndOfStream. That it clears `bufChanged`, which is no register of
the unit, is the model's choice (log 8). -/
def Obligations.InitAttachesTheBuffer : Prop :=
  ∀ (l : Arg) (s : State),
    decode (l ++ 0x01#8) = .ok (.init l) ∧
    exec (.init l) s = .next { s with
      len := l, bitpos := 0, bufChanged := false, rspStatus := 0, rspValue := 0, rspValid := true, busy := false } ∧
    (s.examined (.init l)).2 = 0 ∧
    ∀ (i : Instr) (t : State), exec (.init 0) s = .next t → readsOrSkips i →
      exec i t = .next { t with rspStatus := 1, rspValue := 0 }

/-- R59: READBYTE returns the whole byte BUF(BYTEPOS) and advances by 8 when BYTEPOS < LEN, aligned or not; otherwise it
fails with EndOfStream. -/
def Obligations.ReadbyteReadsTheCurrentByte : Prop :=
  ∀ (a : Arg) (s : State),
    decode (a ++ 0x02#8) = .ok (.readbyte a) ∧
    (s.bitpos.toNat / 8 < s.len.toNat →
      exec (.readbyte a) s = .next { s with
        bitpos := BitVec.ofNat 32 (s.bitpos.toNat + 8), rspStatus := 0,
        rspValue := (s.buf (s.bitpos.toNat / 8)).setWidth 64, rspValid := true, busy := false }) ∧
    (s.len.toNat ≤ s.bitpos.toNat / 8 →
      exec (.readbyte a) s = .next { s with rspStatus := 1, rspValue := 0, rspValid := true, busy := false })

/-- R59, corner case: byte-aligned, READBYTE does what READBITS 8 does. -/
def Obligations.AlignedReadbyteIsReadbitsEight : Prop :=
  ∀ (a : Arg) (s : State), s.bitpos.toNat % 8 = 0 → exec (.readbyte a) s = exec (.readbits 8) s

/-- R60: READBITS n packs stream bit BITPOS + i into RSP_VALUE[n-1-i] with 0 above, and advances by n; it fails with
InvalidArgument on a width outside 1 .. 32, and with EndOfStream when fewer than n bits remain. -/
def Obligations.ReadbitsPacksTheStreamBits : Prop :=
  ∀ (n : Arg) (s : State),
    decode (n ++ 0x03#8) = .ok (.readbits n) ∧
    (1 ≤ n.toNat ∧ n.toNat ≤ 32 ∧ s.bitpos.toNat + n.toNat ≤ 8 * s.len.toNat →
      ∃ v : Value,
        exec (.readbits n) s = .next { s with
          bitpos := BitVec.ofNat 32 (s.bitpos.toNat + n.toNat), rspStatus := 0, rspValue := v,
          rspValid := true, busy := false } ∧
        (∀ i < n.toNat, v.getLsbD (n.toNat - 1 - i) = s.bitAt (s.bitpos.toNat + i)) ∧
        ∀ j, n.toNat ≤ j → v.getLsbD j = false) ∧
    (n.toNat = 0 ∨ 32 < n.toNat →
      exec (.readbits n) s = .next { s with rspStatus := 2, rspValue := 0, rspValid := true, busy := false }) ∧
    (1 ≤ n.toNat ∧ n.toNat ≤ 32 ∧ 8 * s.len.toNat < s.bitpos.toNat + n.toNat →
      exec (.readbits n) s = .next { s with rspStatus := 1, rspValue := 0, rspValid := true, busy := false })

/-- R60 twice: reading m bits and then n is reading m + n bits, the first value above the second. -/
def Obligations.ReadbitsInTwoParts : Prop :=
  ∀ (m n : Arg) (s t u : State), 1 ≤ m.toNat → 1 ≤ n.toNat → m.toNat + n.toNat ≤ 32 →
    exec (.readbits m) s = .next t → t.rspStatus = 0 → exec (.readbits n) t = .next u → u.rspStatus = 0 →
    exec (.readbits (m + n)) s = .next { u with
      rspValue := BitVec.ofNat 64 (t.rspValue.toNat * 2 ^ n.toNat + u.rspValue.toNat) }

/-- R61: READFLAGS n packs bit 7 - i of the byte BYTEPOS into RSP_VALUE[n-1-i] with 0 above, and advances by n; it fails
with InvalidArgument on a width outside 1 .. 8, then with InvalidState when not byte-aligned, then with EndOfStream. Where it
succeeds it does what READBITS n does, and after fewer than 8 flags a second READFLAGS fails with InvalidState. -/
def Obligations.ReadflagsPacksTheFirstFlags : Prop :=
  ∀ (n : Arg) (s : State),
    decode (n ++ 0x04#8) = .ok (.readflags n) ∧
    (1 ≤ n.toNat ∧ n.toNat ≤ 8 ∧ s.bitpos.toNat % 8 = 0 ∧ s.bitpos.toNat / 8 < s.len.toNat →
      ∃ v : Value,
        exec (.readflags n) s = .next { s with
          bitpos := BitVec.ofNat 32 (s.bitpos.toNat + n.toNat), rspStatus := 0, rspValue := v,
          rspValid := true, busy := false } ∧
        (∀ i < n.toNat, v.getLsbD (n.toNat - 1 - i) = (s.buf (s.bitpos.toNat / 8)).getLsbD (7 - i)) ∧
        ∀ j, n.toNat ≤ j → v.getLsbD j = false) ∧
    (n.toNat = 0 ∨ 8 < n.toNat →
      exec (.readflags n) s = .next { s with rspStatus := 2, rspValue := 0, rspValid := true, busy := false }) ∧
    (1 ≤ n.toNat ∧ n.toNat ≤ 8 ∧ s.bitpos.toNat % 8 ≠ 0 →
      exec (.readflags n) s = .next { s with rspStatus := 3, rspValue := 0, rspValid := true, busy := false }) ∧
    (1 ≤ n.toNat ∧ n.toNat ≤ 8 ∧ s.bitpos.toNat % 8 = 0 ∧ s.len.toNat ≤ s.bitpos.toNat / 8 →
      exec (.readflags n) s = .next { s with rspStatus := 1, rspValue := 0, rspValid := true, busy := false }) ∧
    ∀ t : State, exec (.readflags n) s = .next t → t.rspStatus = 0 →
      exec (.readbits n) s = .next t ∧
      (n.toNat < 8 → ∀ m : Arg, 1 ≤ m.toNat → m.toNat ≤ 8 →
        exec (.readflags m) t = .next { t with rspStatus := 3, rspValue := 0 })

/-- R62: SKIPBYTE advances by 8 from any position when 8 bits remain; otherwise it fails with EndOfStream. -/
def Obligations.SkipbyteAdvancesEight : Prop :=
  ∀ (a : Arg) (s : State),
    decode (a ++ 0x05#8) = .ok (.skipbyte a) ∧ (s.examined (.skipbyte a)).2 = 0 ∧
    (s.bitpos.toNat + 8 ≤ 8 * s.len.toNat →
      exec (.skipbyte a) s = .next { s with
        bitpos := BitVec.ofNat 32 (s.bitpos.toNat + 8), rspStatus := 0, rspValue := 0,
        rspValid := true, busy := false }) ∧
    (8 * s.len.toNat < s.bitpos.toNat + 8 →
      exec (.skipbyte a) s = .next { s with rspStatus := 1, rspValue := 0, rspValid := true, busy := false })

/-- R63: SKIPBITS n advances by n when n bits remain; it fails with InvalidArgument on a width outside 1 .. 32, and with
EndOfStream when fewer than n bits remain. -/
def Obligations.SkipbitsAdvances : Prop :=
  ∀ (n : Arg) (s : State),
    decode (n ++ 0x06#8) = .ok (.skipbits n) ∧ (s.examined (.skipbits n)).2 = 0 ∧
    (1 ≤ n.toNat ∧ n.toNat ≤ 32 ∧ s.bitpos.toNat + n.toNat ≤ 8 * s.len.toNat →
      exec (.skipbits n) s = .next { s with
        bitpos := BitVec.ofNat 32 (s.bitpos.toNat + n.toNat), rspStatus := 0, rspValue := 0,
        rspValid := true, busy := false }) ∧
    (n.toNat = 0 ∨ 32 < n.toNat →
      exec (.skipbits n) s = .next { s with rspStatus := 2, rspValue := 0, rspValid := true, busy := false }) ∧
    (1 ≤ n.toNat ∧ n.toNat ≤ 32 ∧ 8 * s.len.toNat < s.bitpos.toNat + n.toNat →
      exec (.skipbits n) s = .next { s with rspStatus := 1, rspValue := 0, rspValid := true, busy := false })

/-- R65: SKIPLZ returns the number z of zeros before the first 1 bit, however many, and advances by z + 1; with no 1 bit
left it fails with EndOfStream. The count is below 2^27. -/
def Obligations.SkiplzCountsTheZeros : Prop :=
  ∀ (a : Arg) (s : State),
    decode (a ++ 0x07#8) = .ok (.skiplz a) ∧
    (∀ z, s.firstOneAfter s.bitpos.toNat z →
      exec (.skiplz a) s = .next { s with
        bitpos := BitVec.ofNat 32 (s.bitpos.toNat + z + 1), rspStatus := 0, rspValue := BitVec.ofNat 64 z,
        rspValid := true, busy := false } ∧ z < 2 ^ 27) ∧
    (s.noOneFrom s.bitpos.toNat →
      exec (.skiplz a) s = .next { s with rspStatus := 1, rspValue := 0, rspValid := true, busy := false })

/-! ### Exp-Golomb commands (41_exp_golomb.md) -/

/-- R68, R69, R70: a complete code of k ≤ 32 leading zeros and the suffix x gives 2^k - 1 + x and advances by 2k + 1. No
1 bit left fails with EndOfStream, then k > 32 with InvalidArgument, then a cut-off suffix with EndOfStream. READUE
does the same, line for line. -/
def Obligations.ReadcodenumAndReadueDecode : Prop :=
  ∀ (a : Arg) (s : State),
    decode (a ++ 0x08#8) = .ok (.readcodenum a) ∧ decode (a ++ 0x09#8) = .ok (.readue a) ∧
    ∀ i, i = .readcodenum a ∨ i = .readue a →
      (∀ k, s.firstOneAfter s.bitpos.toNat k → k ≤ 32 → s.bitpos.toNat + 2 * k + 1 ≤ 8 * s.len.toNat →
        ∃ x < 2 ^ k,
          exec i s = .next { s with
            bitpos := BitVec.ofNat 32 (s.bitpos.toNat + 2 * k + 1), rspStatus := 0,
            rspValue := BitVec.ofNat 64 (2 ^ k - 1 + x), rspValid := true, busy := false } ∧
          ∀ j < k, x.testBit (k - 1 - j) = s.bitAt (s.bitpos.toNat + k + 1 + j)) ∧
      (s.noOneFrom s.bitpos.toNat →
        exec i s = .next { s with rspStatus := 1, rspValue := 0, rspValid := true, busy := false }) ∧
      (∀ k, s.firstOneAfter s.bitpos.toNat k → 32 < k →
        exec i s = .next { s with rspStatus := 2, rspValue := 0, rspValid := true, busy := false }) ∧
      (∀ k, s.firstOneAfter s.bitpos.toNat k → k ≤ 32 → 8 * s.len.toNat < s.bitpos.toNat + 2 * k + 1 →
        exec i s = .next { s with rspStatus := 1, rspValue := 0, rspValid := true, busy := false })

/-- R70: READUE is READCODENUM under its own opcode. -/
def Obligations.ReadueIsReadcodenum : Prop :=
  ∀ (a b : Arg) (s : State), exec (.readue a) s = exec (.readcodenum b) s

/-- R71: where READCODENUM succeeds with c, READSE leaves (-1)^(c+1) · ceil(c / 2) in 64-bit two's complement and
everything else as READCODENUM does; where READCODENUM fails, READSE fails alike. -/
def Obligations.ReadseIsTheZigzagOfTheCodeNumber : Prop :=
  ∀ (a : Arg) (s : State), decode (a ++ 0x0A#8) = .ok (.readse a) ∧
    ∃ t, exec (.readcodenum a) s = .next t ∧
      (t.rspStatus ≠ 0 → exec (.readse a) s = .next t) ∧
      (t.rspStatus = 0 → ∃ v : Value, exec (.readse a) s = .next { t with rspValue := v } ∧
        v.toInt = (-1) ^ (t.rspValue.toNat + 1) * (((t.rspValue.toNat + 1) / 2 : Nat) : Int))

/-- R67, S2: wherever the bits from BITPOS on are the Exp-Golomb code of v ≤ 2^33 - 2, READUE and READCODENUM return
exactly v, READSE its zig-zag value, and each consumes exactly the code. -/
def Obligations.EveryCodeNumberRoundTrips : Prop :=
  ∀ (v : Nat) (a : Arg) (s : State), v ≤ 2 ^ 33 - 2 → s.holds s.bitpos.toNat (expGolombCode v) →
    ∀ t : State, t = { s with
        bitpos := BitVec.ofNat 32 (s.bitpos.toNat + (expGolombCode v).length), rspStatus := 0,
        rspValue := BitVec.ofNat 64 v, rspValid := true, busy := false } →
      exec (.readue a) s = .next t ∧ exec (.readcodenum a) s = .next t ∧
      exec (.readse a) s = .next { t with
        rspValue := BitVec.ofInt 64 (if v % 2 = 1 then ((v / 2 + 1 : Nat) : Int) else -((v / 2 : Nat) : Int)) }

/-- R67, the code is a prefix code: a decode that succeeds with c has read the code of c, and no other number's code
stands there. -/
def Obligations.DecodedCodeIsTheOnlyCode : Prop :=
  ∀ (a : Arg) (s t : State), exec (.readue a) s = .next t → t.rspStatus = 0 →
    s.holds s.bitpos.toNat (expGolombCode t.rspValue.toNat) ∧
    t.bitpos.toNat = s.bitpos.toNat + (expGolombCode t.rspValue.toNat).length ∧
    ∀ v, s.holds s.bitpos.toNat (expGolombCode v) → v = t.rspValue.toNat

/-- R68, R69: READCODENUM is the source's own steps, SKIPLZ and then READBITS of as many bits, with the position put
back when a step fails. -/
def Obligations.DecodeIsSkiplzThenReadbits : Prop :=
  ∀ (a : Arg) (s t : State), exec (.skiplz a) s = .next t →
    (t.rspStatus ≠ 0 → exec (.readcodenum a) s = .next t) ∧
    (t.rspStatus = 0 → t.rspValue.toNat = 0 → exec (.readcodenum a) s = .next t) ∧
    (t.rspStatus = 0 → 1 ≤ t.rspValue.toNat → t.rspValue.toNat < 2 ^ 24 →
      ∃ u, exec (.readbits (BitVec.ofNat 24 t.rspValue.toNat)) t = .next u ∧
        (u.rspStatus = 0 → exec (.readcodenum a) s = .next { u with
          rspValue := BitVec.ofNat 64 (2 ^ t.rspValue.toNat - 1 + u.rspValue.toNat) }) ∧
        (u.rspStatus ≠ 0 → exec (.readcodenum a) s = .next { u with bitpos := s.bitpos }))

/-- R72: the ranges of the results. -/
def Obligations.ResultRanges : Prop :=
  ∀ (a : Arg) (s t : State),
    (exec (.skiplz a) s = .next t → t.rspValue.toNat < 2 ^ 27) ∧
    (exec (.readcodenum a) s = .next t ∨ exec (.readue a) s = .next t →
      t.rspValue.toNat ≤ 2 ^ 33 - 2 ∧ t.bitpos.toNat ≤ s.bitpos.toNat + 65) ∧
    (exec (.readse a) s = .next t →
      -(2 ^ 32 - 1) ≤ t.rspValue.toInt ∧ t.rspValue.toInt ≤ 2 ^ 32 - 1 ∧ t.bitpos.toNat ≤ s.bitpos.toNat + 65)

/-- R73, R74, R75: the three declared forms always fail with Unimplemented, whatever ARG and the state are; BITPOS is
unchanged and no bit is examined. -/
def Obligations.DeclaredFormsAreUnimplemented : Prop :=
  ∀ (a : Arg) (s : State) (i : Instr),
    decode (a ++ 0x0B#8) = .ok (.readtcodenum a) ∧ decode (a ++ 0x0C#8) = .ok (.readme a) ∧
    decode (a ++ 0x0D#8) = .ok (.readte a) ∧
    (i = .readtcodenum a ∨ i = .readme a ∨ i = .readte a →
      exec i s = .next { s with rspStatus := 4, rspValue := 0, rspValid := true, busy := false } ∧
      (s.examined i).2 = 0)

/-! ### Errors (60_exceptions.md) -/

/-- R77: a failing command changes the response and nothing else: BITPOS, LEN and everything beside them stay, and the
value is 0. The second clause says it of the completion edge, so of illegal words too. -/
def Obligations.FailureIsAtomic : Prop :=
  (∀ (i : Instr) (s t : State), exec i s = .next t → t.rspStatus ≠ 0 →
    t = { s with rspStatus := t.rspStatus, rspValue := 0, rspValid := true, busy := false }) ∧
  ∀ s t : State, s.edge.rst = false → s.busy = true → s.atEdge.waits s.edge = false → step s = .next t →
    t.rspStatus ≠ 0 →
    t = { s.atEdge with rspStatus := t.rspStatus, rspValue := 0, rspValid := true, busy := false }

/-- R79 and the order of R80: when each command reports each status. The second clause is R80's first place: at the
completion edge a word that is no command reports IllegalCommand, whatever the state is. -/
def Obligations.ErrorTable : Prop :=
  (∀ (i : Instr) (s t : State), exec i s = .next t →
    (t.rspStatus = 4 ↔ unimplementedWhen i) ∧
    (t.rspStatus = 2 ↔ s.invalidArgumentWhen i) ∧
    (t.rspStatus = 3 ↔ s.invalidStateWhen i ∧ ¬s.invalidArgumentWhen i) ∧
    (t.rspStatus = 1 ↔ s.endOfStreamWhen i ∧ ¬s.invalidArgumentWhen i ∧ ¬s.invalidStateWhen i) ∧
    (t.rspStatus = 0 ↔ ¬unimplementedWhen i ∧ ¬s.invalidArgumentWhen i ∧ ¬s.invalidStateWhen i ∧ ¬s.endOfStreamWhen i)) ∧
  ∀ (s : State) (d : DecodeError), s.edge.rst = false → s.busy = true → s.atEdge.waits s.edge = false →
    decode s.cmdLatch = .error d → ∃ t, step s = .next t ∧ t.rspStatus = 5

/-- R50: a word with an illegal OP is accepted like any other; it then fails with IllegalCommand (code 5) and changes
nothing but the response. -/
def Obligations.IllegalWordFails : Prop :=
  ∀ s : State,
    (s.edge.rst = false → s.busy = false → s.rspValid = false → s.edge.cmdValid = true →
      step s = .next { s.atEdge with cmdLatch := s.edge.cmdWord, busy := true }) ∧
    (s.edge.rst = false → s.busy = true → s.edge.stall = false →
      s.cmdLatch.toNat % 256 = 0 ∨ 14 ≤ s.cmdLatch.toNat % 256 →
      step s = .next { s.atEdge with rspStatus := 5, rspValue := 0, rspValid := true, busy := false })

/-- R83, R18: errors are not sticky. No command reads the response registers, so each behaves as after a success. -/
def Obligations.ErrorsAreNotSticky : Prop :=
  ∀ (i : Instr) (s : State) (c : BitVec 3) (v : Value) (b : Bool),
    exec i { s with rspStatus := c, rspValue := v, rspValid := b } = exec i s

/-- R100: the command step is a total function. Every command, in every state, completes with a response; no command
faults or is refused. -/
def Obligations.EveryCommandCompletes : Prop :=
  ∀ (i : Instr) (s : State), ∃ t, exec i s = .next t ∧ t.rspValid = true ∧ t.busy = false ∧ t.rspStatus.toNat ≤ 4

/-! ### Frames -/

/-- R32, R15, R55: what no command changes. Every byte of memory reads as before; the platform, the latch and the inputs
stay; LEN and the note of a write to the buffer stay but for INIT. -/
def Obligations.WhatNoCommandChanges : Prop :=
  ∀ (i : Instr) (s t : State), exec i s = .next t →
    (∀ x, t.mem.read x = s.mem.read x) ∧ t.mem = s.mem ∧ t.platform = s.platform ∧ t.cmdLatch = s.cmdLatch ∧
    t.inputs = s.inputs ∧ t.rest = s.rest ∧ ((∀ l, i ≠ .init l) → t.len = s.len ∧ t.bufChanged = s.bufChanged)

/-- R32: the unit never writes the buffer. Over one step every byte reads as it does after the platform's own writes
alone, and the platform's parameters stay. -/
def Obligations.OnlyThePlatformWritesMemory : Prop :=
  ∀ s t : State, step s = .next t →
    t.mem = s.edge.writes.foldl (fun m c => m.write c.1 c.2) s.mem ∧
    (s.mem.wf → ∀ x, (∀ c ∈ s.edge.writes, c.1 ≠ x) → t.mem.read x = s.mem.read x) ∧
    t.platform = s.platform ∧ t.inputs = s.inputs.tail ∧ t.rest = s.rest

/-- R15: only INIT writes LEN, apart from reset. -/
def Obligations.OnlyInitWritesLen : Prop :=
  ∀ s t : State, step s = .next t → s.edge.rst = false → t.len ≠ s.len →
    s.busy = true ∧ ∃ l, decode s.cmdLatch = .ok (.init l) ∧ t.len = l

/-- R26: a step without reset that does not complete an INIT, one at which an INIT waits included, does not lower
BITPOS; INIT sets it to 0. -/
def Obligations.BitposNeverDecreases : Prop :=
  (∀ s t : State, step s = .next t → s.edge.rst = false →
    (s.busy = true → s.atEdge.waits s.edge = false → ∀ l, decode s.cmdLatch ≠ .ok (.init l)) → s.bitpos.toNat ≤ t.bitpos.toNat) ∧
  ∀ (l : Arg) (s t : State), exec (.init l) s = .next t → t.bitpos = 0

/-! ### Invariants -/

/-- The invariant holds after reset. Its clause on ADDR_W rests on the platform of log 1, the model's choice. -/
def Obligations.ResetMeetsTheInvariant : Prop := State.reset.Inv

/-- R27 and R22 (legal values), R77 (value 0 on error), R20: every step keeps the invariant. -/
def Obligations.StepKeepsTheInvariant : Prop := ∀ s t : State, s.Inv → step s = .next t → t.Inv

/-- R27: BITPOS passes 8·LEN only by a READBYTE that was not byte-aligned and in the last byte; then BYTEPOS = LEN and
BITINBYTE is kept. In range, BITPOS[31:27] is 0. -/
def Obligations.OvershootOnlyByReadbyte : Prop :=
  (∀ (i : Instr) (s t : State), exec i s = .next t → s.bitpos.toNat ≤ 8 * s.len.toNat →
    8 * t.len.toNat < t.bitpos.toNat →
    (∃ a, i = .readbyte a) ∧ s.bitpos.toNat % 8 ≠ 0 ∧ s.bitpos.toNat / 8 + 1 = s.len.toNat ∧
    t.bitpos.toNat / 8 = t.len.toNat ∧ t.bitpos.toNat % 8 = s.bitpos.toNat % 8) ∧
  (∀ s : State, s.Inv → s.bitpos.extractLsb' 27 5 = 0)

/-! ### The command cycle, handshakes and reset (40_bit_cursor.md R54, 70_reset_and_hazards.md) -/

/-- R54, R55: at the completion edge a step runs the decoded command, from the state at that edge; and the word placed
by `withFetchWord` is run by the very next step. -/
def Obligations.StepRunsTheDecodedCommand : Prop :=
  (∀ (s : State) (i : Instr), s.edge.rst = false → s.busy = true → s.atEdge.waits s.edge = false →
    decode s.cmdLatch = .ok i → s.atEdge.readsChangedBuffer i = false → step s = exec i s.atEdge) ∧
  (∀ (s : State) (w : Word) (i : Instr), decode w = .ok i →
    (s.withFetchWord 32 w.toNat).cmdLatch = w ∧
    step (s.withFetchWord 32 w.toNat) = exec i (s.withFetchWord 32 w.toNat))

/-- R91: with `rst` = 0 and the unit ready, an edge accepts the offered word, and without an offer changes no register. -/
def Obligations.AcceptAtReadyEdge : Prop :=
  ∀ s : State, s.edge.rst = false → s.busy = false → s.rspValid = false →
    (s.edge.cmdValid = true → step s = .next { s.atEdge with cmdLatch := s.edge.cmdWord, busy := true }) ∧
    (s.edge.cmdValid = false → step s = .next s.atEdge)

/-- R91, R88: an offer at an edge where the unit is not ready, or is being reset, has no effect and is not remembered. -/
def Obligations.UnacceptedOfferIsForgotten : Prop :=
  ∀ (s : State) (e : EdgeIn) (es : List EdgeIn) (v : Bool) (w : Word),
    s.busy = true ∨ s.rspValid = true ∨ e.rst = true →
    step { s with inputs := { e with cmdValid := v, cmdWord := w } :: es } = step { s with inputs := e :: es }

/-- R92: the response is taken where `rsp_ready` = 1, which lowers RSP_VALID alone; until then it stays, and no command
is accepted. -/
def Obligations.ResponseWaitsUntilTaken : Prop :=
  ∀ s : State, s.edge.rst = false → s.busy = false → s.rspValid = true →
    (s.edge.rspReady = true → step s = .next { s.atEdge with rspValid := false }) ∧
    (s.edge.rspReady = false → step s = .next s.atEdge)

/-- R54, R91: BUSY rises only where a command is accepted: the unit was ready and a word was offered. -/
def Obligations.OneCommandInFlight : Prop :=
  ∀ s t : State, step s = .next t → t.busy = true →
    (s.busy = true ∧ t.cmdLatch = s.cmdLatch ∧ s.atEdge.waits s.edge = true) ∨
    (s.ready = true ∧ s.edge.cmdValid = true ∧ t.cmdLatch = s.edge.cmdWord)

/-- R22, R38: while a command in flight waits, BUSY stays 1 and registers 0, 1, 3 and 4 show the values from before. -/
def Obligations.WaitingCommandShowsOldValues : Prop :=
  ∀ s : State, s.edge.rst = false → s.busy = true → s.atEdge.waits s.edge = true →
    step s = .next s.atEdge ∧ s.atEdge.busy = true ∧
    ∀ n, s.atEdge.statRdata n = s.statRdata n

/-- R88: an edge with `rst` = 1 gives every register its reset value, abandons a command in flight and takes no other
input; the memory is the platform's. -/
def Obligations.ResetEdgeClearsEveryRegister : Prop :=
  ∀ s : State, s.edge.rst = true →
    step s = .next { s.atEdge with
      bitpos := 0, len := 0, rspStatus := 0, rspValue := 0, rspValid := false, busy := false, cmdLatch := 0,
      bufChanged := false }

/-- R27, R59, R89: with no bit left, as after reset or beyond the end, every read and skip of a legal width fails with
EndOfStream; READFLAGS does so where it is byte-aligned (elsewhere R80 puts InvalidState first). -/
def Obligations.NoReadPastTheEnd : Prop :=
  ∀ (i : Instr) (s : State), 8 * s.len.toNat ≤ s.bitpos.toNat → readsOrSkips i →
    (∀ n, i = .readflags n → s.bitpos.toNat % 8 = 0) →
    exec i s = .next { s with rspStatus := 1, rspValue := 0, rspValid := true, busy := false }

/-- R100: a command in flight responds. With no reset and no write to memory at the coming edges, and a platform that
in the end answers the reads the command makes, it completes within one edge more than `inputs` holds. -/
def Obligations.CommandInFlightResponds : Prop :=
  ∀ s : State, s.busy = true → s.bufChanged = false → (∀ e ∈ s.inputs, e.rst = false ∧ e.writes = []) →
    s.rest.rst = false → s.rest.writes = [] → (s.commandReads = true → s.rest.unanswered = false) →
    ∃ (k : Nat) (t : State), k ≤ s.inputs.length + 1 ∧ Host.Core.run Sys2Proof.core k s = .next t ∧
      t.rspValid = true ∧ t.busy = false

/-- R38, R92, R100 (93 P8, P9): the three endless waits. With the ports as `rest` has them for ever, the unit stays as it
is for ever: BUSY when a buffer read is never answered, holding its response when that is never taken, and idle when
no command is offered. That a wait for LAT ends is log 4 and 9. -/
def Obligations.EndlessWaits : Prop :=
  ∀ s : State, s.inputs = [] → s.rest.rst = false → s.rest.writes = [] →
    (s.busy = true → s.commandReads = true → s.rest.unanswered = true →
      ∀ k, Host.Core.run Sys2Proof.core k s = .next s) ∧
    (s.busy = false → s.rspValid = true → s.rest.rspReady = false → ∀ k, Host.Core.run Sys2Proof.core k s = .next s) ∧
    (s.busy = false → s.rspValid = false → s.rest.cmdValid = false → ∀ k, Host.Core.run Sys2Proof.core k s = .next s)

/-! ### The buffer during a cursor's lifetime (20_memory.md R43) -/

/-- R43, R95 (93 P7): the machine never faults, and it refuses at one place: a command that needs a buffer bit completes
after a write to the attached buffer. There it always refuses, whether the note was set before or by a write at this
edge. The note and the refusal are the model's choice (log 8). -/
def Obligations.OnlyAChangedBufferIsRefused : Prop :=
  (∀ s : State, (∀ f, step s ≠ .fault f) ∧
    ∀ r, step s = .refused r → r = .bufferChanged ∧ s.busy = true ∧ s.edge.rst = false ∧
      s.atEdge.waits s.edge = false ∧
      (∃ i, decode s.cmdLatch = .ok i ∧ (s.atEdge.examined i).2 ≠ 0) ∧
      (s.bufChanged = true ∨ ∃ c ∈ s.edge.writes, ∃ a < s.len.toNat, c.1 = bufAddr s.platform a)) ∧
  ∀ (s : State) (i : Instr), s.edge.rst = false → s.busy = true → s.atEdge.waits s.edge = false →
    decode s.cmdLatch = .ok i → (s.atEdge.examined i).2 ≠ 0 →
    (s.bufChanged = true ∨
      s.platform.wf ∧ ∃ c ∈ s.edge.writes, ∃ a < s.len.toNat, c.1 = bufAddr s.platform a) →
    step s = .refused .bufferChanged

/-- R43: a cursor that an INIT begins reads the contents as they are then. By the model's choice (log 8) a write to byte
a < LEN of the attached buffer is noted, one elsewhere is not, and the INIT clears the note. -/
def Obligations.InitSeesTheNewContents : Prop :=
  (∀ (s : State) (x : Nat) (v : Byte), s.platform.wf → x < 2 ^ s.platform.addrW →
    ((s.platformWrite (x, v)).bufChanged = true ↔
      s.bufChanged = true ∨ ∃ a < s.len.toNat, x = bufAddr s.platform a)) ∧
  (∀ (s t : State) (l : Arg) (a : Nat) (v : Byte), s.mem.wf →
    exec (.init l) (s.platformWrite (bufAddr s.platform a, v)) = .next t → t.bufChanged = false ∧ t.buf a = v)

/-- R86: the units of a system are independent. An edge of one unit does to it what it does alone, and to no other
unit anything. That each unit holds its own copy of the memory and one edge is one unit's is the model's choice
(log 11). -/
def Obligations.UnitsAreIndependent : Prop :=
  ∀ (us vs : List State) (k : Nat), stepUnit us k = .next vs → k < us.length →
    vs.length = us.length ∧ (∃ s t, us[k]? = some s ∧ step s = .next t ∧ vs[k]? = some t) ∧
    ∀ j, j ≠ k → vs[j]? = us[j]?
end

