-- ==== Sys2Proof/Laws/Assembler.lean ====
section
/-! SUPPORT. The assembler's parts: digits are read as they are printed, and a line of one or two parts is cut so. -/

namespace Sys2Proof.Machine

theorem digitValue_digitChar {d : Nat} (h : d < 16) : digitValue (digitChar d) = some d := by
  interval_cases d <;> decide

/-- A printed digit neither ends a part of a line nor begins a comment. -/
theorem digitChar_plain {d : Nat} (h : d < 16) : isBlank (digitChar d) = false ∧ digitChar d ≠ ';' := by
  interval_cases d <;> decide

theorem digitsValue_append (base acc : Nat) (l r : List Char) :
    digitsValue base acc (l ++ r) = (digitsValue base acc l).bind fun v => digitsValue base v r := by
  induction l generalizing acc with
  | nil => rfl
  | cons x l ih =>
    simp only [List.cons_append, digitsValue]
    cases digitValue x with
    | none => rfl
    | some d => simp only; split <;> simp [ih]

theorem digitsValue_decimal (places n : Nat) (h : n < 10 ^ places) (hp : 0 < places) :
    digitsValue 10 0 (decimal places n) = some n := by
  induction places generalizing n with
  | zero => omega
  | succ k ih =>
    rw [decimal]
    split
    · rename_i h9
      simp [digitsValue, digitValue_digitChar (show n < 16 by omega), h9]
    · have hk : 0 < k := by
        rcases k with _ | k
        · simp at h; omega
        · omega
      rw [digitsValue_append, ih (n / 10) (by rw [Nat.pow_succ] at h; omega) hk]
      simp [digitsValue, digitValue_digitChar (show n % 10 < 16 by omega), Nat.mod_lt]
      omega

theorem decimal_digits (places n : Nat) : ∀ c ∈ decimal places n, ∃ d < 10, c = digitChar d := by
  induction places generalizing n with
  | zero => simp [decimal]
  | succ k ih =>
    intro c
    rw [decimal]
    split
    · exact fun hc => ⟨n, by assumption, by simpa using hc⟩
    · intro hc
      rcases List.mem_append.1 hc with hc | hc
      · exact ih _ c hc
      · exact ⟨n % 10, Nat.mod_lt _ (by omega), by simpa using hc⟩

theorem digitsValue_hexadecimal (places n : Nat) :
    digitsValue 16 0 (hexadecimal places n) = some (n % 16 ^ places) := by
  induction places generalizing n with
  | zero => simp [hexadecimal, digitsValue, Nat.mod_one]
  | succ k ih =>
    rw [hexadecimal, digitsValue_append, ih]
    simp [digitsValue, digitValue_digitChar (show n % 16 < 16 by omega), Nat.mod_lt]
    rw [Nat.pow_succ, Nat.mul_comm (16 ^ k) 16, Nat.mod_mul]
    omega

theorem hexadecimal_digits (places n : Nat) : ∀ c ∈ hexadecimal places n, ∃ d < 16, c = digitChar d := by
  induction places generalizing n with
  | zero => simp [hexadecimal]
  | succ k ih =>
    intro c hc
    rw [hexadecimal] at hc
    rcases List.mem_append.1 hc with hc | hc
    · exact ih _ c hc
    · exact ⟨n % 16, Nat.mod_lt _ (by omega), by simpa using hc⟩

/-- A line without a blank is one part. -/
theorem lineParts_of_plain (part w : List Char) (h : ∀ c ∈ w, isBlank c = false) (hne : part ++ w ≠ []) :
    lineParts part w = [part.reverse ++ w] := by
  induction w generalizing part with
  | nil => simp at hne; simp [lineParts, hne]
  | cons c w ih =>
    simp [lineParts, h c (by simp), ih (c :: part) (fun d hd => h d (by simp [hd])) (by simp)]

/-- A line with one blank between two parts is those two. -/
theorem lineParts_of_two (part w r : List Char) (h : ∀ c ∈ w, isBlank c = false) (hr : ∀ c ∈ r, isBlank c = false)
    (hne : part ++ w ≠ []) (hrn : r ≠ []) : lineParts part (w ++ ' ' :: r) = [part.reverse ++ w, r] := by
  induction w generalizing part with
  | nil =>
    simp at hne
    simp [lineParts, isBlank, hne, lineParts_of_plain [] r hr (by simpa using hrn)]
  | cons c w ih =>
    simp [lineParts, h c (by simp), ih (c :: part) (fun d hd => h d (by simp [hd])) (by simp)]

end Sys2Proof.Machine
end

