-- ==== Sys2Proof/Laws/State.lean ====
section
/-! SUPPORT. What each update of the state does to each field, so that no later proof unfolds a record update. -/

namespace Sys2Proof.Machine

variable (s : State)

/-! ### setBitpos -/

@[simp] theorem State.setBitpos_bitpos (p : Nat) : (s.setBitpos p).bitpos = BitVec.ofNat 32 p := rfl
@[simp] theorem State.setBitpos_len (p : Nat) : (s.setBitpos p).len = s.len := rfl
@[simp] theorem State.setBitpos_rspStatus (p : Nat) : (s.setBitpos p).rspStatus = s.rspStatus := rfl
@[simp] theorem State.setBitpos_rspValue (p : Nat) : (s.setBitpos p).rspValue = s.rspValue := rfl
@[simp] theorem State.setBitpos_rspValid (p : Nat) : (s.setBitpos p).rspValid = s.rspValid := rfl
@[simp] theorem State.setBitpos_busy (p : Nat) : (s.setBitpos p).busy = s.busy := rfl
@[simp] theorem State.setBitpos_cmdLatch (p : Nat) : (s.setBitpos p).cmdLatch = s.cmdLatch := rfl
@[simp] theorem State.setBitpos_mem (p : Nat) : (s.setBitpos p).mem = s.mem := rfl
@[simp] theorem State.setBitpos_platform (p : Nat) : (s.setBitpos p).platform = s.platform := rfl
@[simp] theorem State.setBitpos_inputs (p : Nat) : (s.setBitpos p).inputs = s.inputs := rfl
@[simp] theorem State.setBitpos_rest (p : Nat) : (s.setBitpos p).rest = s.rest := rfl
@[simp] theorem State.setBitpos_bufChanged (p : Nat) : (s.setBitpos p).bufChanged = s.bufChanged := rfl

/-! ### attach -/

@[simp] theorem State.attach_bitpos (l : Arg) : (s.attach l).bitpos = 0 := rfl
@[simp] theorem State.attach_len (l : Arg) : (s.attach l).len = l := rfl
@[simp] theorem State.attach_rspStatus (l : Arg) : (s.attach l).rspStatus = s.rspStatus := rfl
@[simp] theorem State.attach_rspValue (l : Arg) : (s.attach l).rspValue = s.rspValue := rfl
@[simp] theorem State.attach_rspValid (l : Arg) : (s.attach l).rspValid = s.rspValid := rfl
@[simp] theorem State.attach_busy (l : Arg) : (s.attach l).busy = s.busy := rfl
@[simp] theorem State.attach_cmdLatch (l : Arg) : (s.attach l).cmdLatch = s.cmdLatch := rfl
@[simp] theorem State.attach_mem (l : Arg) : (s.attach l).mem = s.mem := rfl
@[simp] theorem State.attach_platform (l : Arg) : (s.attach l).platform = s.platform := rfl
@[simp] theorem State.attach_inputs (l : Arg) : (s.attach l).inputs = s.inputs := rfl
@[simp] theorem State.attach_rest (l : Arg) : (s.attach l).rest = s.rest := rfl
@[simp] theorem State.attach_bufChanged (l : Arg) : (s.attach l).bufChanged = false := rfl

/-! ### respond -/

@[simp] theorem State.respond_bitpos (c : BitVec 3) (v : Value) : (s.respond c v).bitpos = s.bitpos := rfl
@[simp] theorem State.respond_len (c : BitVec 3) (v : Value) : (s.respond c v).len = s.len := rfl
@[simp] theorem State.respond_rspStatus (c : BitVec 3) (v : Value) : (s.respond c v).rspStatus = c := rfl
@[simp] theorem State.respond_rspValue (c : BitVec 3) (v : Value) : (s.respond c v).rspValue = v := rfl
@[simp] theorem State.respond_rspValid (c : BitVec 3) (v : Value) : (s.respond c v).rspValid = true := rfl
@[simp] theorem State.respond_busy (c : BitVec 3) (v : Value) : (s.respond c v).busy = false := rfl
@[simp] theorem State.respond_cmdLatch (c : BitVec 3) (v : Value) : (s.respond c v).cmdLatch = s.cmdLatch := rfl
@[simp] theorem State.respond_mem (c : BitVec 3) (v : Value) : (s.respond c v).mem = s.mem := rfl
@[simp] theorem State.respond_platform (c : BitVec 3) (v : Value) : (s.respond c v).platform = s.platform := rfl
@[simp] theorem State.respond_inputs (c : BitVec 3) (v : Value) : (s.respond c v).inputs = s.inputs := rfl
@[simp] theorem State.respond_rest (c : BitVec 3) (v : Value) : (s.respond c v).rest = s.rest := rfl
@[simp] theorem State.respond_bufChanged (c : BitVec 3) (v : Value) : (s.respond c v).bufChanged = s.bufChanged := rfl

/-! ### raise -/

@[simp] theorem State.raise_bitpos (e : ErrorKind) : (s.raise e).bitpos = s.bitpos := rfl
@[simp] theorem State.raise_len (e : ErrorKind) : (s.raise e).len = s.len := rfl
@[simp] theorem State.raise_rspStatus (e : ErrorKind) : (s.raise e).rspStatus = e.code := rfl
@[simp] theorem State.raise_rspValue (e : ErrorKind) : (s.raise e).rspValue = 0 := rfl
@[simp] theorem State.raise_rspValid (e : ErrorKind) : (s.raise e).rspValid = true := rfl
@[simp] theorem State.raise_busy (e : ErrorKind) : (s.raise e).busy = false := rfl
@[simp] theorem State.raise_cmdLatch (e : ErrorKind) : (s.raise e).cmdLatch = s.cmdLatch := rfl
@[simp] theorem State.raise_mem (e : ErrorKind) : (s.raise e).mem = s.mem := rfl
@[simp] theorem State.raise_platform (e : ErrorKind) : (s.raise e).platform = s.platform := rfl
@[simp] theorem State.raise_inputs (e : ErrorKind) : (s.raise e).inputs = s.inputs := rfl
@[simp] theorem State.raise_rest (e : ErrorKind) : (s.raise e).rest = s.rest := rfl
@[simp] theorem State.raise_bufChanged (e : ErrorKind) : (s.raise e).bufChanged = s.bufChanged := rfl

/-! ### advance -/

@[simp] theorem State.advance_bitpos (p : Nat) (v : Value) : (s.advance p v).bitpos = BitVec.ofNat 32 p := rfl
@[simp] theorem State.advance_len (p : Nat) (v : Value) : (s.advance p v).len = s.len := rfl
@[simp] theorem State.advance_rspStatus (p : Nat) (v : Value) : (s.advance p v).rspStatus = statusOK := rfl
@[simp] theorem State.advance_rspValue (p : Nat) (v : Value) : (s.advance p v).rspValue = v := rfl
@[simp] theorem State.advance_rspValid (p : Nat) (v : Value) : (s.advance p v).rspValid = true := rfl
@[simp] theorem State.advance_busy (p : Nat) (v : Value) : (s.advance p v).busy = false := rfl
@[simp] theorem State.advance_cmdLatch (p : Nat) (v : Value) : (s.advance p v).cmdLatch = s.cmdLatch := rfl
@[simp] theorem State.advance_mem (p : Nat) (v : Value) : (s.advance p v).mem = s.mem := rfl
@[simp] theorem State.advance_platform (p : Nat) (v : Value) : (s.advance p v).platform = s.platform := rfl
@[simp] theorem State.advance_inputs (p : Nat) (v : Value) : (s.advance p v).inputs = s.inputs := rfl
@[simp] theorem State.advance_rest (p : Nat) (v : Value) : (s.advance p v).rest = s.rest := rfl
@[simp] theorem State.advance_bufChanged (p : Nat) (v : Value) : (s.advance p v).bufChanged = s.bufChanged := rfl

/-! ### popEdge -/

@[simp] theorem State.popEdge_bitpos : (s.popEdge).bitpos = s.bitpos := rfl
@[simp] theorem State.popEdge_len : (s.popEdge).len = s.len := rfl
@[simp] theorem State.popEdge_rspStatus : (s.popEdge).rspStatus = s.rspStatus := rfl
@[simp] theorem State.popEdge_rspValue : (s.popEdge).rspValue = s.rspValue := rfl
@[simp] theorem State.popEdge_rspValid : (s.popEdge).rspValid = s.rspValid := rfl
@[simp] theorem State.popEdge_busy : (s.popEdge).busy = s.busy := rfl
@[simp] theorem State.popEdge_cmdLatch : (s.popEdge).cmdLatch = s.cmdLatch := rfl
@[simp] theorem State.popEdge_mem : (s.popEdge).mem = s.mem := rfl
@[simp] theorem State.popEdge_platform : (s.popEdge).platform = s.platform := rfl
@[simp] theorem State.popEdge_inputs : (s.popEdge).inputs = s.inputs.tail := rfl
@[simp] theorem State.popEdge_rest : (s.popEdge).rest = s.rest := rfl
@[simp] theorem State.popEdge_bufChanged : (s.popEdge).bufChanged = s.bufChanged := rfl

/-! ### platformWrite -/

@[simp] theorem State.platformWrite_bitpos (c : Host.Cell) : (s.platformWrite c).bitpos = s.bitpos := rfl
@[simp] theorem State.platformWrite_len (c : Host.Cell) : (s.platformWrite c).len = s.len := rfl
@[simp] theorem State.platformWrite_rspStatus (c : Host.Cell) : (s.platformWrite c).rspStatus = s.rspStatus := rfl
@[simp] theorem State.platformWrite_rspValue (c : Host.Cell) : (s.platformWrite c).rspValue = s.rspValue := rfl
@[simp] theorem State.platformWrite_rspValid (c : Host.Cell) : (s.platformWrite c).rspValid = s.rspValid := rfl
@[simp] theorem State.platformWrite_busy (c : Host.Cell) : (s.platformWrite c).busy = s.busy := rfl
@[simp] theorem State.platformWrite_cmdLatch (c : Host.Cell) : (s.platformWrite c).cmdLatch = s.cmdLatch := rfl
@[simp] theorem State.platformWrite_mem (c : Host.Cell) : (s.platformWrite c).mem = s.mem.write c.1 c.2 := rfl
@[simp] theorem State.platformWrite_platform (c : Host.Cell) : (s.platformWrite c).platform = s.platform := rfl
@[simp] theorem State.platformWrite_inputs (c : Host.Cell) : (s.platformWrite c).inputs = s.inputs := rfl
@[simp] theorem State.platformWrite_rest (c : Host.Cell) : (s.platformWrite c).rest = s.rest := rfl
@[simp] theorem State.platformWrite_bufChanged (c : Host.Cell) : (s.platformWrite c).bufChanged = (s.bufChanged || s.inBuffer c.1) := rfl

/-! ### accept -/

@[simp] theorem State.accept_bitpos (w : Word) : (s.accept w).bitpos = s.bitpos := rfl
@[simp] theorem State.accept_len (w : Word) : (s.accept w).len = s.len := rfl
@[simp] theorem State.accept_rspStatus (w : Word) : (s.accept w).rspStatus = s.rspStatus := rfl
@[simp] theorem State.accept_rspValue (w : Word) : (s.accept w).rspValue = s.rspValue := rfl
@[simp] theorem State.accept_rspValid (w : Word) : (s.accept w).rspValid = s.rspValid := rfl
@[simp] theorem State.accept_busy (w : Word) : (s.accept w).busy = true := rfl
@[simp] theorem State.accept_cmdLatch (w : Word) : (s.accept w).cmdLatch = w := rfl
@[simp] theorem State.accept_mem (w : Word) : (s.accept w).mem = s.mem := rfl
@[simp] theorem State.accept_platform (w : Word) : (s.accept w).platform = s.platform := rfl
@[simp] theorem State.accept_inputs (w : Word) : (s.accept w).inputs = s.inputs := rfl
@[simp] theorem State.accept_rest (w : Word) : (s.accept w).rest = s.rest := rfl
@[simp] theorem State.accept_bufChanged (w : Word) : (s.accept w).bufChanged = s.bufChanged := rfl

/-! ### takeResponse -/

@[simp] theorem State.takeResponse_bitpos : (s.takeResponse).bitpos = s.bitpos := rfl
@[simp] theorem State.takeResponse_len : (s.takeResponse).len = s.len := rfl
@[simp] theorem State.takeResponse_rspStatus : (s.takeResponse).rspStatus = s.rspStatus := rfl
@[simp] theorem State.takeResponse_rspValue : (s.takeResponse).rspValue = s.rspValue := rfl
@[simp] theorem State.takeResponse_rspValid : (s.takeResponse).rspValid = false := rfl
@[simp] theorem State.takeResponse_busy : (s.takeResponse).busy = s.busy := rfl
@[simp] theorem State.takeResponse_cmdLatch : (s.takeResponse).cmdLatch = s.cmdLatch := rfl
@[simp] theorem State.takeResponse_mem : (s.takeResponse).mem = s.mem := rfl
@[simp] theorem State.takeResponse_platform : (s.takeResponse).platform = s.platform := rfl
@[simp] theorem State.takeResponse_inputs : (s.takeResponse).inputs = s.inputs := rfl
@[simp] theorem State.takeResponse_rest : (s.takeResponse).rest = s.rest := rfl
@[simp] theorem State.takeResponse_bufChanged : (s.takeResponse).bufChanged = s.bufChanged := rfl

/-! ### resetRegisters -/

@[simp] theorem State.resetRegisters_bitpos : (s.resetRegisters).bitpos = 0 := rfl
@[simp] theorem State.resetRegisters_len : (s.resetRegisters).len = 0 := rfl
@[simp] theorem State.resetRegisters_rspStatus : (s.resetRegisters).rspStatus = 0 := rfl
@[simp] theorem State.resetRegisters_rspValue : (s.resetRegisters).rspValue = 0 := rfl
@[simp] theorem State.resetRegisters_rspValid : (s.resetRegisters).rspValid = false := rfl
@[simp] theorem State.resetRegisters_busy : (s.resetRegisters).busy = false := rfl
@[simp] theorem State.resetRegisters_cmdLatch : (s.resetRegisters).cmdLatch = 0 := rfl
@[simp] theorem State.resetRegisters_mem : (s.resetRegisters).mem = s.mem := rfl
@[simp] theorem State.resetRegisters_platform : (s.resetRegisters).platform = s.platform := rfl
@[simp] theorem State.resetRegisters_inputs : (s.resetRegisters).inputs = s.inputs := rfl
@[simp] theorem State.resetRegisters_rest : (s.resetRegisters).rest = s.rest := rfl
@[simp] theorem State.resetRegisters_bufChanged : (s.resetRegisters).bufChanged = false := rfl

/-! ### inFlight -/

@[simp] theorem State.inFlight_bitpos (w : Word) : (s.inFlight w).bitpos = s.bitpos := rfl
@[simp] theorem State.inFlight_len (w : Word) : (s.inFlight w).len = s.len := rfl
@[simp] theorem State.inFlight_rspStatus (w : Word) : (s.inFlight w).rspStatus = s.rspStatus := rfl
@[simp] theorem State.inFlight_rspValue (w : Word) : (s.inFlight w).rspValue = s.rspValue := rfl
@[simp] theorem State.inFlight_rspValid (w : Word) : (s.inFlight w).rspValid = false := rfl
@[simp] theorem State.inFlight_busy (w : Word) : (s.inFlight w).busy = true := rfl
@[simp] theorem State.inFlight_cmdLatch (w : Word) : (s.inFlight w).cmdLatch = w := rfl
@[simp] theorem State.inFlight_mem (w : Word) : (s.inFlight w).mem = s.mem := rfl
@[simp] theorem State.inFlight_platform (w : Word) : (s.inFlight w).platform = s.platform := rfl
@[simp] theorem State.inFlight_inputs (w : Word) : (s.inFlight w).inputs = [] := rfl
@[simp] theorem State.inFlight_rest (w : Word) : (s.inFlight w).rest = {} := rfl
@[simp] theorem State.inFlight_bufChanged (w : Word) : (s.inFlight w).bufChanged = false := rfl

/-! ### platformWrites: the writes before one edge touch the memory and the note of a write to the buffer only -/

@[simp] theorem State.platformWrites_nil : s.platformWrites [] = s := rfl

@[simp] theorem State.platformWrites_cons (c : Host.Cell) (cs : List Host.Cell) :
    s.platformWrites (c :: cs) = (s.platformWrite c).platformWrites cs := rfl

@[simp] theorem State.platformWrites_bitpos (cs : List Host.Cell) : (s.platformWrites cs).bitpos = s.bitpos := by
  induction cs generalizing s with
  | nil => rfl
  | cons c cs ih => simp [ih]
@[simp] theorem State.platformWrites_len (cs : List Host.Cell) : (s.platformWrites cs).len = s.len := by
  induction cs generalizing s with
  | nil => rfl
  | cons c cs ih => simp [ih]
@[simp] theorem State.platformWrites_rspStatus (cs : List Host.Cell) : (s.platformWrites cs).rspStatus = s.rspStatus := by
  induction cs generalizing s with
  | nil => rfl
  | cons c cs ih => simp [ih]
@[simp] theorem State.platformWrites_rspValue (cs : List Host.Cell) : (s.platformWrites cs).rspValue = s.rspValue := by
  induction cs generalizing s with
  | nil => rfl
  | cons c cs ih => simp [ih]
@[simp] theorem State.platformWrites_rspValid (cs : List Host.Cell) : (s.platformWrites cs).rspValid = s.rspValid := by
  induction cs generalizing s with
  | nil => rfl
  | cons c cs ih => simp [ih]
@[simp] theorem State.platformWrites_busy (cs : List Host.Cell) : (s.platformWrites cs).busy = s.busy := by
  induction cs generalizing s with
  | nil => rfl
  | cons c cs ih => simp [ih]
@[simp] theorem State.platformWrites_cmdLatch (cs : List Host.Cell) : (s.platformWrites cs).cmdLatch = s.cmdLatch := by
  induction cs generalizing s with
  | nil => rfl
  | cons c cs ih => simp [ih]
@[simp] theorem State.platformWrites_platform (cs : List Host.Cell) : (s.platformWrites cs).platform = s.platform := by
  induction cs generalizing s with
  | nil => rfl
  | cons c cs ih => simp [ih]
@[simp] theorem State.platformWrites_inputs (cs : List Host.Cell) : (s.platformWrites cs).inputs = s.inputs := by
  induction cs generalizing s with
  | nil => rfl
  | cons c cs ih => simp [ih]
@[simp] theorem State.platformWrites_rest (cs : List Host.Cell) : (s.platformWrites cs).rest = s.rest := by
  induction cs generalizing s with
  | nil => rfl
  | cons c cs ih => simp [ih]

@[simp] theorem State.platformWrite_inBuffer (c : Host.Cell) (x : Nat) :
    (s.platformWrite c).inBuffer x = s.inBuffer x := rfl

theorem State.platformWrites_mem (cs : List Host.Cell) :
    (s.platformWrites cs).mem = cs.foldl (fun m c => m.write c.1 c.2) s.mem := by
  induction cs generalizing s with
  | nil => rfl
  | cons c cs ih => simp [ih]

theorem State.platformWrites_bufChanged (cs : List Host.Cell) :
    (s.platformWrites cs).bufChanged = (s.bufChanged || cs.any (fun c => s.inBuffer c.1)) := by
  induction cs generalizing s with
  | nil => simp
  | cons c cs ih => simp [ih, Bool.or_assoc]

/-! ### The edge -/

theorem State.edge_of_nil (h : s.inputs = []) : s.edge = { s.rest with stall := false } := by rw [State.edge, h]

theorem State.edge_of_cons {e : EdgeIn} {es : List EdgeIn} (h : s.inputs = e :: es) : s.edge = e := by rw [State.edge, h]

theorem State.popEdge_of_nil (h : s.inputs = []) : s.popEdge = s := by
  cases s; cases h; rfl

end Sys2Proof.Machine
end

