-- ==== Sys2Proof/Laws/Cursor.lean ====
section
/-! SUPPORT. The cursor's views, the bits of the buffer, the leading-zero scan and the code-number decode: one
specification lemma for each operation of Machine/Ops.lean. -/

namespace Sys2Proof.Machine

variable (s : State)

/-! ### Views of BITPOS -/

theorem State.bytepos_eq : s.bytepos = s.bitpos.toNat / 8 := by
  have h : s.bitpos.toNat < 2 ^ 32 := s.bitpos.isLt
  simp only [State.bytepos, BitVec.extractLsb'_toNat, Nat.shiftRight_eq_div_pow]
  omega

theorem State.bitinbyte_eq : s.bitinbyte = s.bitpos.toNat % 8 := by
  simp [State.bitinbyte, BitVec.extractLsb'_toNat]

theorem State.avail_iff (p n : Nat) : s.avail p n = true ↔ p + n ≤ 8 * s.len.toNat := by
  rw [State.avail, State.bitLen, decide_eq_true_iff]

theorem widthOK_iff (n w : Nat) : widthOK n w = true ↔ 1 ≤ n ∧ n ≤ w := by
  simp [widthOK]; omega

/-- LEN is so short that no position a command writes wraps (R27). -/
theorem State.bitLen_bound : 8 * s.len.toNat + 8 ≤ 2 ^ 27 := by
  have h : s.len.toNat < 2 ^ 24 := s.len.isLt
  omega

theorem toNat_ofNat32 (p : Nat) (h : p < 2 ^ 32) : (BitVec.ofNat 32 p).toNat = p := by
  rw [BitVec.toNat_ofNat]
  exact Nat.mod_eq_of_lt h

/-! ### Bits -/

theorem State.bits_lt (p n : Nat) : s.bits p n < 2 ^ n := by
  induction n with
  | zero => simp [State.bits]
  | succ n ih =>
    have h : (s.bitAt (p + n)).toNat ≤ 1 := Bool.toNat_le _
    simp only [State.bits, Nat.pow_succ]
    omega

/-- The first bit read is the most significant (R10). -/
theorem State.bits_testBit (p n i : Nat) (h : i < n) : (s.bits p n).testBit (n - 1 - i) = s.bitAt (p + i) := by
  induction n with
  | zero => omega
  | succ n ih =>
    simp only [State.bits]
    rcases Nat.lt_succ_iff_lt_or_eq.1 h with hi | rfl
    · have e : n + 1 - 1 - i = (n - 1 - i) + 1 := by omega
      rw [e, Nat.testBit_succ, ← ih hi]
      congr 1
      have := Bool.toNat_le (s.bitAt (p + n))
      omega
    · simp only [Nat.add_sub_cancel, Nat.sub_self, Nat.testBit_zero]
      cases s.bitAt (p + i) <;> simp

/-- Reading m + n bits is reading m, then n. -/
theorem State.bits_add (p m n : Nat) : s.bits p (m + n) = s.bits p m * 2 ^ n + s.bits (p + m) n := by
  induction n with
  | zero => simp [State.bits]
  | succ n ih =>
    rw [← Nat.add_assoc]
    simp only [State.bits, ih, Nat.pow_succ, Nat.add_assoc]
    ring

/-- Bits depends on the bits it reads only. -/
theorem State.bits_congr (s t : State) (p n : Nat) (h : ∀ j < n, s.bitAt (p + j) = t.bitAt (p + j)) :
    s.bits p n = t.bits p n := by
  induction n with
  | zero => rfl
  | succ n ih => simp only [State.bits, ih (fun j hj => h j (by omega)), h n (by omega)]

/-- The first n bits of a byte are its n most significant ones. -/
theorem State.bits_of_byte (a n : Nat) (hn : n ≤ 8) : s.bits (8 * a) n = (s.buf a).toNat / 2 ^ (8 - n) := by
  induction n with
  | zero =>
    have h : (s.buf a).toNat < 2 ^ 8 := (s.buf a).isLt
    simp only [State.bits]
    omega
  | succ n ih =>
    have e : s.bitAt (8 * a + n) = (s.buf a).getLsbD (8 - (n + 1)) := by
      rw [State.bitAt, show (8 * a + n) / 8 = a by omega, show 7 - (8 * a + n) % 8 = 8 - (n + 1) by omega]
    rw [State.bits, ih (by omega), e, show 8 - n = 8 - (n + 1) + 1 by omega]
    generalize 8 - (n + 1) = m
    rw [BitVec.getLsbD, Nat.testBit_eq_decide_div_mod_eq, Nat.pow_succ, ← Nat.div_div_eq_div_mul]
    generalize (s.buf a).toNat / 2 ^ m = y
    by_cases h : y % 2 = 1 <;> simp [h] <;> omega

/-! ### The leading-zero scan (R64) -/

theorem State.scan_eq_some (p left z : Nat) :
    s.scan p left = some z ↔ z < left ∧ s.bitAt (p + z) = true ∧ ∀ j < z, s.bitAt (p + j) = false := by
  induction left generalizing p z with
  | zero => simp [State.scan]
  | succ left ih =>
    simp only [State.scan]
    split
    · rename_i hb
      constructor
      · rintro ⟨rfl⟩
        exact ⟨by omega, by simpa using hb, fun j hj => by omega⟩
      · rintro ⟨-, -, hz⟩
        cases z with
        | zero => rfl
        | succ z => simpa [hb] using hz 0 (by omega)
    · rename_i hb
      rw [Option.map_eq_some_iff]
      constructor
      · rintro ⟨y, hy, rfl⟩
        obtain ⟨h1, h2, h3⟩ := (ih (p + 1) y).1 hy
        refine ⟨by omega, by rw [← h2]; congr 1; omega, fun j hj => ?_⟩
        cases j with
        | zero => simpa using hb
        | succ j => rw [← h3 j (by omega)]; congr 1; omega
      · rintro ⟨h1, h2, h3⟩
        cases z with
        | zero => exact absurd h2 (by simpa using hb)
        | succ z =>
          refine ⟨z, (ih (p + 1) z).2 ⟨by omega, by rw [← h2]; congr 1; omega, fun j hj => ?_⟩, rfl⟩
          rw [← h3 (j + 1) (by omega)]
          congr 1
          omega

theorem State.scan_eq_none (p left : Nat) : s.scan p left = none ↔ ∀ j < left, s.bitAt (p + j) = false := by
  induction left generalizing p with
  | zero => simp [State.scan]
  | succ left ih =>
    simp only [State.scan]
    split
    · rename_i hb
      refine ⟨by simp, fun h => ?_⟩
      simpa [hb] using h 0 (by omega)
    · rename_i hb
      rw [Option.map_eq_none_iff, ih]
      constructor
      · intro h j hj
        cases j with
        | zero => simpa using hb
        | succ j => rw [← h j (by omega)]; congr 1; omega
      · intro h j hj
        rw [← h (j + 1) (by omega)]
        congr 1
        omega

theorem State.lz_eq_some (p z : Nat) : s.lz p = some z ↔ s.firstOneAfter p z := by
  rw [State.lz, State.scan_eq_some, State.firstOneAfter, State.bitLen]
  exact and_congr_left (fun _ => by omega)

theorem State.lz_eq_none (p : Nat) : s.lz p = none ↔ s.noOneFrom p := by
  rw [State.lz, State.scan_eq_none, State.noOneFrom, State.bitLen]
  constructor
  · intro h q hp hq
    rw [← h (q - p) (by omega)]
    congr 1
    omega
  · exact fun h j hj => h (p + j) (by omega) (by omega)

/-- LZ has one value. -/
theorem State.firstOneAfter_unique (p y z : Nat) (hy : s.firstOneAfter p y) (hz : s.firstOneAfter p z) : y = z := by
  rw [← State.lz_eq_some] at hy hz
  exact Option.some.inj (hy.symm.trans hz)

/-- Two buffers that agree on the zeros and the 1 bit that ends them have the same LZ there. -/
theorem State.firstOneAfter_congr (s t : State) (p z : Nat) (hl : s.len = t.len)
    (h : ∀ j ≤ z, s.bitAt (p + j) = t.bitAt (p + j)) : s.firstOneAfter p z ↔ t.firstOneAfter p z := by
  unfold State.firstOneAfter
  rw [hl, h z (Nat.le_refl z)]
  refine and_congr_right (fun _ => and_congr_right (fun _ => ?_))
  exact forall₂_congr (fun j hj => by rw [h j (Nat.le_of_lt hj)])

/-! ### The code-number decode (R68) -/

theorem State.codeNum_of_noOne (p : Nat) (h : s.noOneFrom p) : s.codeNum p = .error .endOfStream := by
  rw [State.codeNum, (State.lz_eq_none s p).2 h]

theorem State.codeNum_of_long (p k : Nat) (h : s.firstOneAfter p k) (hk : 32 < k) :
    s.codeNum p = .error .invalidArgument := by
  simp only [State.codeNum, (State.lz_eq_some s p k).2 h]
  rw [if_neg (by omega), if_pos (show maxLz < k from hk)]

theorem State.codeNum_of_truncated (p k : Nat) (h : s.firstOneAfter p k) (h1 : 1 ≤ k) (h2 : k ≤ 32)
    (he : 8 * s.len.toNat < p + 2 * k + 1) : s.codeNum p = .error .endOfStream := by
  simp only [State.codeNum, (State.lz_eq_some s p k).2 h]
  rw [if_neg (by omega), if_neg (show ¬maxLz < k from by rw [maxLz]; omega), if_neg]
  rw [State.avail_iff]
  omega

/-- A complete code of at most 32 leading zeros is decoded; k = 0 is no exception to the formula. -/
theorem State.codeNum_of_complete (p k : Nat) (h : s.firstOneAfter p k) (h2 : k ≤ 32)
    (he : p + 2 * k + 1 ≤ 8 * s.len.toNat) :
    s.codeNum p = .ok (2 ^ k - 1 + s.bits (p + k + 1) k, 2 * k + 1) := by
  simp only [State.codeNum, (State.lz_eq_some s p k).2 h]
  by_cases h0 : k = 0
  · subst h0; simp [State.bits]
  · rw [if_neg h0, if_neg (show ¬maxLz < k from by rw [maxLz]; omega), if_pos]
    rw [State.avail_iff]
    omega

/-- All that CodeNum can answer. -/
theorem State.codeNum_cases (p : Nat) :
    (s.noOneFrom p ∧ s.codeNum p = .error .endOfStream) ∨
    (∃ k, s.firstOneAfter p k ∧ 32 < k ∧ s.codeNum p = .error .invalidArgument) ∨
    (∃ k, s.firstOneAfter p k ∧ 1 ≤ k ∧ k ≤ 32 ∧ 8 * s.len.toNat < p + 2 * k + 1 ∧
      s.codeNum p = .error .endOfStream) ∨
    (∃ k, s.firstOneAfter p k ∧ k ≤ 32 ∧ p + 2 * k + 1 ≤ 8 * s.len.toNat ∧
      s.codeNum p = .ok (2 ^ k - 1 + s.bits (p + k + 1) k, 2 * k + 1)) := by
  cases hz : s.lz p with
  | none =>
    rw [State.lz_eq_none] at hz
    exact .inl ⟨hz, s.codeNum_of_noOne p hz⟩
  | some k =>
    rw [State.lz_eq_some] at hz
    by_cases hk : 32 < k
    · exact .inr (.inl ⟨k, hz, hk, s.codeNum_of_long p k hz hk⟩)
    · by_cases he : p + 2 * k + 1 ≤ 8 * s.len.toNat
      · exact .inr (.inr (.inr ⟨k, hz, by omega, he, s.codeNum_of_complete p k hz (by omega) he⟩))
      · have h1 : 1 ≤ k := by have := hz.1; omega
        exact .inr (.inr (.inl ⟨k, hz, h1, by omega, by omega,
          s.codeNum_of_truncated p k hz h1 (by omega) (by omega)⟩))

/-! ### Values of responses -/

theorem zext64_toNat (v : Nat) (h : v < 2 ^ 64) : (zext64 v).toNat = v := by
  rw [zext64, BitVec.toNat_ofNat]
  exact Nat.mod_eq_of_lt h

/-- A suffix of at most 32 bits gives a code number of at most 2^33 - 2 (R72). -/
theorem codeNumber_bound (k x : Nat) (hk : k ≤ 32) (hx : x < 2 ^ k) : 2 ^ k - 1 + x ≤ 2 ^ 33 - 2 := by
  have h : 2 ^ k ≤ 2 ^ 32 := Nat.pow_le_pow_right (by omega) hk
  omega

/-- The two forms of the signed map that R71 gives are one. -/
theorem signedOfCodeNum_eq (c : Nat) : signedOfCodeNum c = (-1) ^ (c + 1) * (((c + 1) / 2 : Nat) : Int) := by
  unfold signedOfCodeNum
  split
  · rw [Even.neg_one_pow (by rw [Nat.even_iff]; omega), one_mul]
  · rw [Odd.neg_one_pow (by rw [Nat.odd_iff]; omega)]
    push_cast
    omega

end Sys2Proof.Machine
end

