-- ==== Sys2Proof/Laws/Examined.lean ====
section
/-! SUPPORT. The stream bits each reading command examines, in plain arithmetic. -/

namespace Sys2Proof.Machine

variable (s : State)

theorem State.examined_readbyte (a : Arg) : s.examined (.readbyte a) =
    if s.bitpos.toNat / 8 < s.len.toNat then (8 * (s.bitpos.toNat / 8), 8) else (0, 0) := by
  simp only [State.examined, State.bytepos_eq]

theorem State.examined_readbits (n : Arg) : s.examined (.readbits n) =
    if 1 ≤ n.toNat ∧ n.toNat ≤ 32 ∧ s.bitpos.toNat + n.toNat ≤ 8 * s.len.toNat
    then (s.bitpos.toNat, n.toNat) else (0, 0) := by
  simp only [State.examined, Bool.and_eq_true, widthOK_iff, State.avail_iff, argNat, maxAdv, and_assoc]

theorem State.examined_readflags (n : Arg) : s.examined (.readflags n) =
    if 1 ≤ n.toNat ∧ n.toNat ≤ 8 ∧ s.bitpos.toNat % 8 = 0 ∧ s.bitpos.toNat / 8 < s.len.toNat
    then (8 * (s.bitpos.toNat / 8), n.toNat) else (0, 0) := by
  simp only [State.examined, Bool.and_eq_true, widthOK_iff, beq_iff_eq, decide_eq_true_iff, State.bytepos_eq,
    State.bitinbyte_eq, argNat, maxFlags, and_assoc]

theorem State.examined_skiplz_of_noOne (a : Arg) (h : s.noOneFrom s.bitpos.toNat) :
    s.examined (.skiplz a) = (s.bitpos.toNat, 8 * s.len.toNat - s.bitpos.toNat) := by
  simp only [State.examined, (s.lz_eq_none _).2 h, State.bitLen]

theorem State.examined_skiplz_of_firstOne (a : Arg) (z : Nat) (h : s.firstOneAfter s.bitpos.toNat z) :
    s.examined (.skiplz a) = (s.bitpos.toNat, z + 1) := by
  simp only [State.examined, (s.lz_eq_some _ _).2 h]

/-- The bits CodeNum examines: to the end, or to the first 1 bit, or the whole code. -/
theorem State.codeBits_cases (p : Nat) :
    (s.noOneFrom p ∧ s.codeBits p = 8 * s.len.toNat - p) ∨
    (∃ k, s.firstOneAfter p k ∧ (32 < k ∨ 8 * s.len.toNat < p + 2 * k + 1) ∧ s.codeBits p = k + 1) ∨
    (∃ k, s.firstOneAfter p k ∧ k ≤ 32 ∧ p + 2 * k + 1 ≤ 8 * s.len.toNat ∧ s.codeBits p = 2 * k + 1) := by
  unfold State.codeBits
  cases h : s.lz p with
  | none => exact .inl ⟨(s.lz_eq_none p).1 h, rfl⟩
  | some k =>
    have hk := (s.lz_eq_some p k).1 h
    have he := hk.1
    refine .inr ?_
    simp only [State.avail_iff]
    by_cases h1 : k = 0 ∨ maxLz < k
    · rw [if_pos h1]
      rw [maxLz] at h1
      rcases h1 with rfl | h1
      · exact .inr ⟨0, hk, by omega, by omega, rfl⟩
      · exact .inl ⟨k, hk, .inl h1, rfl⟩
    · rw [if_neg h1]
      rw [maxLz] at h1
      split
      · exact .inr ⟨k, hk, by omega, by omega, rfl⟩
      · exact .inl ⟨k, hk, .inr (by omega), rfl⟩

/-! ### What a command examines depends on BITPOS, LEN and the bits of the buffer -/

theorem State.lz_congr {s t : State} (hl : s.len = t.len) (h : ∀ q, s.bitAt q = t.bitAt q) (p : Nat) : s.lz p = t.lz p := by
  have scan : ∀ n p, s.scan p n = t.scan p n := by
    intro n
    induction n with
    | zero => intro p; rfl
    | succ n ih => intro p; simp only [State.scan, h, ih]
  simp only [State.lz, State.bitLen, hl, scan]

theorem State.examined_congr {s t : State} (hp : s.bitpos = t.bitpos) (hl : s.len = t.len)
    (h : ∀ q, s.bitAt q = t.bitAt q) (i : Instr) : s.examined i = t.examined i := by
  cases i <;>
    simp only [State.examined, State.codeBits, State.lz_congr hl h, State.bytepos, State.bitinbyte, State.avail,
      State.bitLen, hp, hl] <;>
    rfl

@[simp] theorem State.popEdge_readsBuffer (i : Instr) : s.popEdge.readsBuffer i = s.readsBuffer i := by
  rw [State.readsBuffer, State.readsBuffer, State.examined_congr (s := s.popEdge) (t := s) rfl rfl (fun _ => rfl)]

@[simp] theorem State.popEdge_commandReads : s.popEdge.commandReads = s.commandReads := by
  simp only [State.commandReads, State.popEdge_readsBuffer, State.popEdge_cmdLatch]

end Sys2Proof.Machine
end

