-- ==== Sys2Proof/Laws/Exec.lean ====
section
/-! SUPPORT. What a command can do, once for all thirteen, and when each advances. -/

namespace Sys2Proof.Machine

variable (s : State)

/-- A bit position a successful command writes does not wrap (R27). -/
theorem State.advance_bitpos_toNat (n : Nat) (v : Value) (h : s.bitpos.toNat + n ≤ 8 * s.len.toNat + 7) :
    (s.advance (s.bitpos.toNat + n) v).bitpos.toNat = s.bitpos.toNat + n := by
  have hb := s.bitLen_bound
  rw [State.advance_bitpos, toNat_ofNat32 _ (by omega)]

/-- A failing command's status is not OK. -/
theorem State.raise_status_ne (e : ErrorKind) : (s.raise e).rspStatus ≠ 0 := by cases e <;> simp [ErrorKind.code]

/-- What a command answers, and what it answers only. -/
theorem next_inj {s t : State} (h : (Host.Outcome.next s : Host.Outcome State Fault Refusal) = .next t) : s = t := by
  injection h

theorem execReadbyte_cases (a : Arg) :
    (s.len.toNat ≤ s.bitpos.toNat / 8 ∧ execReadbyte a s = .next (s.raise .endOfStream)) ∨
    (s.bitpos.toNat / 8 < s.len.toNat ∧ execReadbyte a s =
      .next (s.advance (s.bitpos.toNat + 8) (zext64 (s.buf (s.bitpos.toNat / 8)).toNat))) := by
  rw [execReadbyte, State.bytepos_eq]
  split
  · exact .inl ⟨by assumption, rfl⟩
  · exact .inr ⟨by omega, rfl⟩

theorem execReadbits_cases (n : Arg) :
    ((n.toNat = 0 ∨ 32 < n.toNat) ∧ execReadbits n s = .next (s.raise .invalidArgument)) ∨
    (1 ≤ n.toNat ∧ n.toNat ≤ 32 ∧ 8 * s.len.toNat < s.bitpos.toNat + n.toNat ∧
      execReadbits n s = .next (s.raise .endOfStream)) ∨
    (1 ≤ n.toNat ∧ n.toNat ≤ 32 ∧ s.bitpos.toNat + n.toNat ≤ 8 * s.len.toNat ∧ execReadbits n s =
      .next (s.advance (s.bitpos.toNat + n.toNat) (zext64 (s.bits s.bitpos.toNat n.toNat)))) := by
  simp only [execReadbits, widthOK_iff, State.avail_iff, argNat, maxAdv]
  by_cases hw : 1 ≤ n.toNat ∧ n.toNat ≤ 32
  · by_cases ha : s.bitpos.toNat + n.toNat ≤ 8 * s.len.toNat
    · exact .inr (.inr ⟨hw.1, hw.2, ha, by rw [if_neg (not_not.2 hw), if_neg (not_not.2 ha)]⟩)
    · exact .inr (.inl ⟨hw.1, hw.2, by omega, by rw [if_neg (not_not.2 hw), if_pos ha]⟩)
  · exact .inl ⟨by omega, by rw [if_pos hw]⟩

theorem execReadflags_cases (n : Arg) :
    ((n.toNat = 0 ∨ 8 < n.toNat) ∧ execReadflags n s = .next (s.raise .invalidArgument)) ∨
    (1 ≤ n.toNat ∧ n.toNat ≤ 8 ∧ s.bitpos.toNat % 8 ≠ 0 ∧ execReadflags n s = .next (s.raise .invalidState)) ∨
    (1 ≤ n.toNat ∧ n.toNat ≤ 8 ∧ s.bitpos.toNat % 8 = 0 ∧ s.len.toNat ≤ s.bitpos.toNat / 8 ∧
      execReadflags n s = .next (s.raise .endOfStream)) ∨
    (1 ≤ n.toNat ∧ n.toNat ≤ 8 ∧ s.bitpos.toNat % 8 = 0 ∧ s.bitpos.toNat / 8 < s.len.toNat ∧ execReadflags n s =
      .next (s.advance (s.bitpos.toNat + n.toNat)
        (zext64 ((s.buf (s.bitpos.toNat / 8)).toNat / 2 ^ (8 - n.toNat))))) := by
  simp only [execReadflags, widthOK_iff, State.bytepos_eq, State.bitinbyte_eq, argNat, maxFlags]
  by_cases hw : 1 ≤ n.toNat ∧ n.toNat ≤ 8
  · by_cases ha : s.bitpos.toNat % 8 = 0
    · by_cases hb : s.len.toNat ≤ s.bitpos.toNat / 8
      · exact .inr (.inr (.inl ⟨hw.1, hw.2, ha, hb, by rw [if_neg (not_not.2 hw), if_neg (not_not.2 ha), if_pos hb]⟩))
      · exact .inr (.inr (.inr ⟨hw.1, hw.2, ha, by omega,
          by rw [if_neg (not_not.2 hw), if_neg (not_not.2 ha), if_neg hb]⟩))
    · exact .inr (.inl ⟨hw.1, hw.2, ha, by rw [if_neg (not_not.2 hw), if_pos ha]⟩)
  · exact .inl ⟨by omega, by rw [if_pos hw]⟩

theorem execSkipbyte_cases (a : Arg) :
    (8 * s.len.toNat < s.bitpos.toNat + 8 ∧ execSkipbyte a s = .next (s.raise .endOfStream)) ∨
    (s.bitpos.toNat + 8 ≤ 8 * s.len.toNat ∧ execSkipbyte a s = .next (s.advance (s.bitpos.toNat + 8) 0)) := by
  simp only [execSkipbyte, State.avail_iff]
  by_cases h : s.bitpos.toNat + 8 ≤ 8 * s.len.toNat
  · exact .inr ⟨h, by rw [if_neg (not_not.2 h)]⟩
  · exact .inl ⟨by omega, by rw [if_pos h]⟩

theorem execSkipbits_cases (n : Arg) :
    ((n.toNat = 0 ∨ 32 < n.toNat) ∧ execSkipbits n s = .next (s.raise .invalidArgument)) ∨
    (1 ≤ n.toNat ∧ n.toNat ≤ 32 ∧ 8 * s.len.toNat < s.bitpos.toNat + n.toNat ∧
      execSkipbits n s = .next (s.raise .endOfStream)) ∨
    (1 ≤ n.toNat ∧ n.toNat ≤ 32 ∧ s.bitpos.toNat + n.toNat ≤ 8 * s.len.toNat ∧
      execSkipbits n s = .next (s.advance (s.bitpos.toNat + n.toNat) 0)) := by
  simp only [execSkipbits, widthOK_iff, State.avail_iff, argNat, maxAdv]
  by_cases hw : 1 ≤ n.toNat ∧ n.toNat ≤ 32
  · by_cases ha : s.bitpos.toNat + n.toNat ≤ 8 * s.len.toNat
    · exact .inr (.inr ⟨hw.1, hw.2, ha, by rw [if_neg (not_not.2 hw), if_neg (not_not.2 ha)]⟩)
    · exact .inr (.inl ⟨hw.1, hw.2, by omega, by rw [if_neg (not_not.2 hw), if_pos ha]⟩)
  · exact .inl ⟨by omega, by rw [if_pos hw]⟩

theorem execSkiplz_cases (a : Arg) :
    (s.noOneFrom s.bitpos.toNat ∧ execSkiplz a s = .next (s.raise .endOfStream)) ∨
    (∃ z, s.firstOneAfter s.bitpos.toNat z ∧ execSkiplz a s =
      .next (s.advance (s.bitpos.toNat + z + 1) (zext64 z))) := by
  rw [execSkiplz]
  cases h : s.lz s.bitpos.toNat with
  | none => exact .inl ⟨(s.lz_eq_none _).1 h, rfl⟩
  | some z => exact .inr ⟨z, (s.lz_eq_some _ _).1 h, rfl⟩

/-- The three decoding commands, with what each makes of the code number. -/
theorem execCode_cases (i : Instr) (val : Nat → Value)
    (hi : (∃ a, (i = .readcodenum a ∨ i = .readue a) ∧ val = zext64) ∨
      (∃ a, i = .readse a ∧ val = fun c => twos64 (signedOfCodeNum c))) :
    (s.noOneFrom s.bitpos.toNat ∧ exec i s = .next (s.raise .endOfStream)) ∨
    (∃ k, s.firstOneAfter s.bitpos.toNat k ∧ 32 < k ∧ exec i s = .next (s.raise .invalidArgument)) ∨
    (∃ k, s.firstOneAfter s.bitpos.toNat k ∧ 1 ≤ k ∧ k ≤ 32 ∧ 8 * s.len.toNat < s.bitpos.toNat + 2 * k + 1 ∧
      exec i s = .next (s.raise .endOfStream)) ∨
    (∃ k, s.firstOneAfter s.bitpos.toNat k ∧ k ≤ 32 ∧ s.bitpos.toNat + 2 * k + 1 ≤ 8 * s.len.toNat ∧
      exec i s = .next (s.advance (s.bitpos.toNat + (2 * k + 1))
        (val (2 ^ k - 1 + s.bits (s.bitpos.toNat + k + 1) k)))) := by
  have key : ∀ r, s.codeNum s.bitpos.toNat = r → exec i s = match r with
      | .error e => .next (s.raise e)
      | .ok (c, l) => .next (s.advance (s.bitpos.toNat + l) (val c)) := by
    rintro r rfl
    rcases hi with ⟨a, rfl | rfl, rfl⟩ | ⟨a, rfl, rfl⟩ <;>
      cases hc : s.codeNum s.bitpos.toNat <;> simp only [exec, execReadcodenum, execReadue, execReadse, hc]
  rcases s.codeNum_cases s.bitpos.toNat with ⟨h, hr⟩ | ⟨k, h, hk, hr⟩ | ⟨k, h, h1, h2, he, hr⟩ | ⟨k, h, h2, he, hr⟩
  · exact .inl ⟨h, key _ hr⟩
  · exact .inr (.inl ⟨k, h, hk, key _ hr⟩)
  · exact .inr (.inr (.inl ⟨k, h, h1, h2, he, key _ hr⟩))
  · exact .inr (.inr (.inr ⟨k, h, h2, he, key _ hr⟩))

/-- Everything a command can do: INIT attaches a buffer; any command may fail and change nothing but the response,
and never with IllegalCommand, which is for words that are no command; a
command that succeeds moves the cursor by a positive amount, and past the end of the buffer by READBYTE alone. -/
theorem exec_cases (i : Instr) :
    (∃ l, i = .init l ∧ exec i s = .next ((s.attach l).respond statusOK 0)) ∨
    (∃ e, e ≠ .illegalCommand ∧ exec i s = .next (s.raise e)) ∨
    (∃ n v, 1 ≤ n ∧ exec i s = .next (s.advance (s.bitpos.toNat + n) v) ∧ (∀ l, i ≠ .init l) ∧
      (s.bitpos.toNat + n ≤ 8 * s.len.toNat ∨
        (∃ a, i = .readbyte a) ∧ n = 8 ∧ s.bitpos.toNat / 8 < s.len.toNat)) := by
  have code : ∀ i' val, ((∃ a, (i' = .readcodenum a ∨ i' = .readue a) ∧ val = zext64) ∨
      (∃ a, i' = .readse a ∧ val = fun c => twos64 (signedOfCodeNum c))) → (∀ l, i' ≠ .init l) →
      (∃ e, e ≠ .illegalCommand ∧ exec i' s = .next (s.raise e)) ∨
      (∃ n v, 1 ≤ n ∧ exec i' s = .next (s.advance (s.bitpos.toNat + n) v) ∧ (∀ l, i' ≠ .init l) ∧
      (s.bitpos.toNat + n ≤ 8 * s.len.toNat ∨
        (∃ a, i' = .readbyte a) ∧ n = 8 ∧ s.bitpos.toNat / 8 < s.len.toNat)) := by
    intro i' val hi hn
    rcases execCode_cases s i' val hi with ⟨_, h⟩ | ⟨_, _, _, h⟩ | ⟨_, _, _, _, _, h⟩ | ⟨k, _, _, he, h⟩
    · exact .inl ⟨_, by simp, h⟩
    · exact .inl ⟨_, by simp, h⟩
    · exact .inl ⟨_, by simp, h⟩
    · exact .inr ⟨2 * k + 1, _, by omega, h, hn, .inl (by omega)⟩
  cases i with
  | init l => exact .inl ⟨l, rfl, rfl⟩
  | readbyte a =>
    rcases execReadbyte_cases s a with ⟨_, h⟩ | ⟨hb, h⟩
    · exact .inr (.inl ⟨_, by simp, h⟩)
    · exact .inr (.inr ⟨8, _, by omega, h, by simp, .inr ⟨⟨a, rfl⟩, rfl, hb⟩⟩)
  | readbits n =>
    rcases execReadbits_cases s n with ⟨_, h⟩ | ⟨_, _, _, h⟩ | ⟨h1, _, he, h⟩
    · exact .inr (.inl ⟨_, by simp, h⟩)
    · exact .inr (.inl ⟨_, by simp, h⟩)
    · exact .inr (.inr ⟨_, _, h1, h, by simp, .inl he⟩)
  | readflags n =>
    rcases execReadflags_cases s n with ⟨_, h⟩ | ⟨_, _, _, h⟩ | ⟨_, _, _, _, h⟩ | ⟨h1, h8, ha, he, h⟩
    · exact .inr (.inl ⟨_, by simp, h⟩)
    · exact .inr (.inl ⟨_, by simp, h⟩)
    · exact .inr (.inl ⟨_, by simp, h⟩)
    · exact .inr (.inr ⟨_, _, h1, h, by simp, .inl (by omega)⟩)
  | skipbyte a =>
    rcases execSkipbyte_cases s a with ⟨_, h⟩ | ⟨he, h⟩
    · exact .inr (.inl ⟨_, by simp, h⟩)
    · exact .inr (.inr ⟨8, _, by omega, h, by simp, .inl he⟩)
  | skipbits n =>
    rcases execSkipbits_cases s n with ⟨_, h⟩ | ⟨_, _, _, h⟩ | ⟨h1, _, he, h⟩
    · exact .inr (.inl ⟨_, by simp, h⟩)
    · exact .inr (.inl ⟨_, by simp, h⟩)
    · exact .inr (.inr ⟨_, _, h1, h, by simp, .inl he⟩)
  | skiplz a =>
    rcases execSkiplz_cases s a with ⟨_, h⟩ | ⟨z, hz, h⟩
    · exact .inr (.inl ⟨_, by simp, h⟩)
    · exact .inr (.inr ⟨z + 1, _, by omega, h, by simp, .inl (by have := hz.1; omega)⟩)
  | readcodenum a => exact .inr (code _ _ (.inl ⟨a, .inl rfl, rfl⟩) (by simp))
  | readue a => exact .inr (code _ _ (.inl ⟨a, .inr rfl, rfl⟩) (by simp))
  | readse a => exact .inr (code _ _ (.inr ⟨a, rfl, rfl⟩) (by simp))
  | readtcodenum a => exact .inr (.inl ⟨_, by simp, rfl⟩)
  | readme a => exact .inr (.inl ⟨_, by simp, rfl⟩)
  | readte a => exact .inr (.inl ⟨_, by simp, rfl⟩)

end Sys2Proof.Machine
end

