-- ==== Sys2Proof/Laws/Memory.lean ====
section
/-! SUPPORT. The memory: a read after a write, and every operation keeps the canonical form. -/

namespace Sys2Proof.Machine

theorem Memory.read_of_absent (m : Memory) (x : Nat) (h : ∀ c ∈ m, c.1 ≠ x) : m.read x = Memory.unlisted := by
  induction m with
  | nil => rfl
  | cons c m ih =>
    have hc : c.1 ≠ x := h c (by simp)
    simp only [Memory.read, if_neg hc]
    exact ih (fun d hd => h d (by simp [hd]))

theorem Memory.read_put (m : Memory) (x : Nat) (v : Byte) (y : Nat) (hs : m.Pairwise (fun c d => c.1 < d.1)) :
    (Memory.put x v m).read y = if x = y then v else m.read y := by
  induction m with
  | nil => simp [Memory.put, Memory.read]
  | cons c m ih =>
    obtain ⟨a, b⟩ := c
    rw [List.pairwise_cons] at hs
    simp only [Memory.put]
    split
    · simp [Memory.read]
    · split
      · subst x
        by_cases h : a = y <;> simp [Memory.read, h]
      · rename_i h1 h2
        simp only [Memory.read, ih hs.2]
        by_cases h : a = y
        · subst y; simp [h2]
        · simp [h]

theorem Memory.read_filter (m : Memory) (x y : Nat) :
    Memory.read (m.filter (fun c => c.1 ≠ x)) y = if x = y then Memory.unlisted else m.read y := by
  induction m with
  | nil => simp [Memory.read]
  | cons c m ih =>
    obtain ⟨a, b⟩ := c
    by_cases h : a = x
    · subst x
      simp only [ne_eq, not_true_eq_false, decide_false, Bool.false_eq_true, not_false_eq_true, List.filter_cons_of_neg]
      rw [ih]
      by_cases hy : a = y <;> simp [Memory.read, hy]
    · simp only [ne_eq, h, not_false_eq_true, decide_true, List.filter_cons_of_pos, Memory.read, ih]
      by_cases hy : a = y
      · subst y; simp [Ne.symm h]
      · simp [hy]

/-- A read after a write, at any address. -/
theorem Memory.read_write (m : Memory) (x : Nat) (v : Byte) (y : Nat) (h : m.wf) :
    (m.write x v).read y = if x = y then v else m.read y := by
  unfold Memory.write
  split
  · rename_i hv
    rw [Memory.read_filter, hv]
  · exact Memory.read_put m x v y h.1

theorem Memory.mem_put (m : Memory) (x : Nat) (v : Byte) (c : Host.Cell) (h : c ∈ Memory.put x v m) :
    c = (x, v) ∨ c ∈ m := by
  induction m with
  | nil => simpa [Memory.put] using h
  | cons d m ih =>
    obtain ⟨a, b⟩ := d
    simp only [Memory.put] at h
    split at h
    · simpa using h
    · split at h
      · rcases List.mem_cons.1 h with h | h
        · exact .inl h
        · exact .inr (List.mem_cons_of_mem _ h)
      · rcases List.mem_cons.1 h with h | h
        · exact .inr (h ▸ by simp)
        · exact (ih h).imp id (List.mem_cons_of_mem _)

theorem Memory.put_sorted (m : Memory) (x : Nat) (v : Byte) (hs : m.Pairwise (fun c d => c.1 < d.1)) :
    (Memory.put x v m).Pairwise (fun c d => c.1 < d.1) := by
  induction m with
  | nil => simp [Memory.put]
  | cons c m ih =>
    obtain ⟨a, b⟩ := c
    have hs' := hs
    rw [List.pairwise_cons] at hs
    simp only [Memory.put]
    split
    · rename_i hx
      refine List.pairwise_cons.2 ⟨fun d hd => ?_, hs'⟩
      rcases List.mem_cons.1 hd with rfl | hd
      · exact hx
      · exact Nat.lt_trans hx (hs.1 d hd)
    · split
      · rename_i hx
        subst x
        exact List.pairwise_cons.2 ⟨hs.1, hs.2⟩
      · rename_i h1 h2
        refine List.pairwise_cons.2 ⟨fun d hd => ?_, ih hs.2⟩
        rcases Memory.mem_put m x v d hd with rfl | hd
        · show a < x
          omega
        · exact hs.1 d hd

/-- A write keeps the canonical form. -/
theorem Memory.wf_write (m : Memory) (x : Nat) (v : Byte) (h : m.wf) : (m.write x v).wf := by
  unfold Memory.write
  split
  · exact ⟨h.1.filter _, fun c hc => h.2 c (List.mem_filter.1 hc).1⟩
  · rename_i hv
    refine ⟨Memory.put_sorted m x v h.1, fun c hc => ?_⟩
    rcases Memory.mem_put m x v c hc with rfl | hc
    · exact hv
    · exact h.2 c hc

theorem Memory.wf_nil : Memory.wf [] := by decide

/-- The writes before an edge keep the canonical form. -/
theorem State.platformWrites_wf (s : State) (cs : List Host.Cell) (h : s.mem.wf) : (s.platformWrites cs).mem.wf := by
  induction cs generalizing s with
  | nil => exact h
  | cons c cs ih => exact ih _ (Memory.wf_write _ _ _ h)

/-! ### Buffer addresses (R39) -/

/-- An index below 2^ADDR_W is found again from its address. -/
theorem bufIndex_bufAddr (p : Platform) (a : Nat) (h : a < 2 ^ p.addrW) : bufIndex p (bufAddr p a) = a := by
  unfold bufIndex bufAddr
  have hp : 0 < 2 ^ p.addrW := Nat.two_pow_pos _
  generalize 2 ^ p.addrW = m at *
  have h1 : p.bufBase % m < m := Nat.mod_lt _ hp
  rw [Nat.add_mod p.bufBase a m]
  generalize p.bufBase % m = b at *
  rw [Nat.mod_eq_of_lt h, Nat.mod_add_mod, show b + a + (m - b) = a + m by omega, Nat.add_mod_right,
    Nat.mod_eq_of_lt h]

/-- An address of ADDR_W bits is the address of its index. -/
theorem bufAddr_bufIndex (p : Platform) (x : Nat) (h : x < 2 ^ p.addrW) : bufAddr p (bufIndex p x) = x := by
  unfold bufIndex bufAddr
  have hp : 0 < 2 ^ p.addrW := Nat.two_pow_pos _
  generalize 2 ^ p.addrW = m at *
  have h1 : p.bufBase % m < m := Nat.mod_lt _ hp
  have h2 : p.bufBase = m * (p.bufBase / m) + p.bufBase % m := (Nat.div_add_mod _ _).symm
  rw [Nat.add_mod_mod, show p.bufBase + (x + (m - p.bufBase % m)) = x + m + m * (p.bufBase / m) by omega,
    Nat.add_mul_mod_self_left, Nat.add_mod_right, Nat.mod_eq_of_lt h]

/-- The bytes of the attached buffer are those of an index below LEN. -/
theorem State.inBuffer_iff (s : State) (x : Nat) :
    s.inBuffer x = true ↔ x < 2 ^ s.platform.addrW ∧ bufIndex s.platform x < s.len.toNat := by
  rw [State.inBuffer, decide_eq_true_iff]

end Sys2Proof.Machine
end

