-- ==== Sys2Proof/Laws/PerInstr.lean ====
section
/-! SUPPORT. The family WordFields: the two fields of every command's word (30_encoding.md R45, R48). -/

namespace Sys2Proof.Laws.WordFields

/-- The encoder puts the row's OP in bits 7 to 0 and ARG in bits 31 to 8. -/
def Statement (i : Instr) : Prop := opField (encode i) = i.opcode ∧ argField (encode i) = i.arg

theorem fields (a : Arg) (o : Opcode) :
    opField (a ++ o : BitVec (24 + 8)) = o ∧ argField (a ++ o : BitVec (24 + 8)) = a := by
  have bit : ∀ j, BitVec.getLsbD (w := 32) (a ++ o : BitVec (24 + 8)) j =
      if j < 8 then o.getLsbD j else a.getLsbD (j - 8) := fun j => BitVec.getLsbD_append
  constructor
  · apply BitVec.eq_of_getLsbD_eq
    intro i hi
    rw [opField, BitVec.getLsbD_extractLsb', bit]
    simp [hi]
  · apply BitVec.eq_of_getLsbD_eq
    intro i hi
    rw [argField, BitVec.getLsbD_extractLsb', bit]
    simp [hi]

theorem init (a : Arg) : Statement (.init a) := fields a _
theorem readbyte (a : Arg) : Statement (.readbyte a) := fields a _
theorem readbits (a : Arg) : Statement (.readbits a) := fields a _
theorem readflags (a : Arg) : Statement (.readflags a) := fields a _
theorem skipbyte (a : Arg) : Statement (.skipbyte a) := fields a _
theorem skipbits (a : Arg) : Statement (.skipbits a) := fields a _
theorem skiplz (a : Arg) : Statement (.skiplz a) := fields a _
theorem readcodenum (a : Arg) : Statement (.readcodenum a) := fields a _
theorem readue (a : Arg) : Statement (.readue a) := fields a _
theorem readse (a : Arg) : Statement (.readse a) := fields a _
theorem readtcodenum (a : Arg) : Statement (.readtcodenum a) := fields a _
theorem readme (a : Arg) : Statement (.readme a) := fields a _
theorem readte (a : Arg) : Statement (.readte a) := fields a _

end Sys2Proof.Laws.WordFields
end

