-- ==== Sys2Proof/Laws/Step.lean ====
section
/-! SUPPORT. What one step can do. -/

namespace Sys2Proof.Machine

variable (s : State)

theorem step_eq : step s = clockEdge s.edge s.atEdge := rfl

/-! ### The state at the edge differs from the state before in its memory, its inputs and the note of a write only -/

@[simp] theorem State.atEdge_bitpos : s.atEdge.bitpos = s.bitpos := by simp [State.atEdge]
@[simp] theorem State.atEdge_len : s.atEdge.len = s.len := by simp [State.atEdge]
@[simp] theorem State.atEdge_rspStatus : s.atEdge.rspStatus = s.rspStatus := by simp [State.atEdge]
@[simp] theorem State.atEdge_rspValue : s.atEdge.rspValue = s.rspValue := by simp [State.atEdge]
@[simp] theorem State.atEdge_rspValid : s.atEdge.rspValid = s.rspValid := by simp [State.atEdge]
@[simp] theorem State.atEdge_busy : s.atEdge.busy = s.busy := by simp [State.atEdge]
@[simp] theorem State.atEdge_cmdLatch : s.atEdge.cmdLatch = s.cmdLatch := by simp [State.atEdge]
@[simp] theorem State.atEdge_platform : s.atEdge.platform = s.platform := by simp [State.atEdge]
@[simp] theorem State.atEdge_inputs : s.atEdge.inputs = s.inputs.tail := by simp [State.atEdge]
@[simp] theorem State.atEdge_rest : s.atEdge.rest = s.rest := by simp [State.atEdge]

theorem State.atEdge_wf (h : s.mem.wf) : s.atEdge.mem.wf := State.platformWrites_wf _ _ h

theorem State.atEdge_of_quiet (h : s.edge.writes = []) : s.atEdge = s.popEdge := by simp [State.atEdge, h]

theorem State.atEdge_of_rest (h : s.inputs = []) (hw : s.rest.writes = []) : s.atEdge = s := by
  rw [s.atEdge_of_quiet (by rw [s.edge_of_nil h]; exact hw), s.popEdge_of_nil h]

/-- A command word that is no command waits for nothing but LAT. -/
theorem State.waits_of_illegal (e : EdgeIn) {d : DecodeError} (h : decode s.cmdLatch = .error d) : s.waits e = e.stall := by
  simp [State.waits, State.commandReads, h]

/-- Everything a step can do. -/
theorem step_cases :
    (s.edge.rst = true ∧ step s = .next s.atEdge.resetRegisters) ∨
    (s.edge.rst = false ∧ s.busy = true ∧ s.atEdge.waits s.edge = true ∧ step s = .next s.atEdge) ∨
    (s.edge.rst = false ∧ s.busy = true ∧ s.atEdge.waits s.edge = false ∧
      decode s.cmdLatch = .error .illegalCommand ∧ step s = .next (s.atEdge.raise .illegalCommand)) ∨
    (∃ i, s.edge.rst = false ∧ s.busy = true ∧ s.atEdge.waits s.edge = false ∧ decode s.cmdLatch = .ok i ∧
      s.atEdge.readsChangedBuffer i = true ∧ step s = .refused .bufferChanged) ∨
    (∃ i, s.edge.rst = false ∧ s.busy = true ∧ s.atEdge.waits s.edge = false ∧ decode s.cmdLatch = .ok i ∧
      s.atEdge.readsChangedBuffer i = false ∧ step s = exec i s.atEdge) ∨
    (s.edge.rst = false ∧ s.busy = false ∧ s.rspValid = true ∧ s.edge.rspReady = true ∧
      step s = .next s.atEdge.takeResponse) ∨
    (s.edge.rst = false ∧ s.busy = false ∧ s.rspValid = true ∧ s.edge.rspReady = false ∧ step s = .next s.atEdge) ∨
    (s.edge.rst = false ∧ s.busy = false ∧ s.rspValid = false ∧ s.edge.cmdValid = true ∧
      step s = .next (s.atEdge.accept s.edge.cmdWord)) ∨
    (s.edge.rst = false ∧ s.busy = false ∧ s.rspValid = false ∧ s.edge.cmdValid = false ∧ step s = .next s.atEdge) := by
  rw [step_eq, clockEdge]
  cases hr : s.edge.rst with
  | true => simp
  | false =>
    cases hb : s.busy with
    | true =>
      cases hs : s.atEdge.waits s.edge with
      | true => simp [hb]
      | false =>
        cases hd : decode s.cmdLatch with
        | error e =>
          cases e
          simp [hb, completeCommand, hd]
        | ok i =>
          cases hc : s.atEdge.readsChangedBuffer i <;> simp [hb, completeCommand, hd, hc]
    | false =>
      cases hv : s.rspValid <;> cases hy : s.edge.rspReady <;> cases hc : s.edge.cmdValid <;>
        simp [hb, hv, hy, hc, State.idleEdge]

/-! ### Runs -/

theorem run_of_core (M : Host.Core) (k : Nat) (s t : M.State) (h : M.step s = .next t) :
    M.run (k + 1) s = M.run k t := by
  rw [Host.Core.run, h]

theorem run_succ_of_next (k : Nat) (t : State) (h : step s = .next t) :
    Host.Core.run Sys2Proof.core (k + 1) s = Host.Core.run Sys2Proof.core k t :=
  run_of_core Sys2Proof.core k s t h

theorem run_one_of_next (t : State) (h : step s = .next t) : Host.Core.run Sys2Proof.core 1 s = .next t :=
  run_of_core Sys2Proof.core 0 s t h

/-- A state that a step leaves as it is stays so for ever. -/
theorem run_of_fixed (h : step s = .next s) (k : Nat) : Host.Core.run Sys2Proof.core k s = .next s := by
  induction k with
  | zero => rfl
  | succ k ih => rw [run_succ_of_next _ _ _ h, ih]

end Sys2Proof.Machine
end

