-- ==== Sys2Proof/Tests/Slice0.lean ====
section
/-! SUPPORT. The model's own tests. Expected results are the spec's: a V, S or P number is a row of
95_test_vectors.md. A theorem named witness_<Statement> shows that the hypotheses of that obligation are met. -/

namespace Sys2Proof.Tests

open Sys2Proof.Machine

/-! ### Helpers -/

/-- Memory that holds the bytes from address `a` on. -/
def bytesAt : Nat → List Byte → Memory
  | _, [] => []
  | a, b :: bs => if b = 0 then bytesAt (a + 1) bs else (a, b) :: bytesAt (a + 1) bs

/-- A cursor at bit `p` over the buffer `bs` (BUF_BASE = 0), idle. -/
def cursor (bs : List Byte) (p : Nat) : State :=
  { State.reset with mem := bytesAt 0 bs, len := BitVec.ofNat 24 bs.length, bitpos := BitVec.ofNat 32 p }

/-- Status, value and BITPOS of a next state. -/
def answer (o : Host.Outcome State Fault Refusal) : Option (Nat × Nat × Nat) :=
  match o with
  | .next t => some (t.rspStatus.toNat, t.rspValue.toNat, t.bitpos.toNat)
  | .fault _ => none
  | .refused _ => none

/-- The answer to the command word `w`, decoded and performed by one step. -/
def perform (bs : List Byte) (p w : Nat) : Option (Nat × Nat × Nat) := answer (step ((cursor bs p).withFetchWord 32 w))

/-! ### WellFormed: the one check (R52), an ill-formed term and a well-formed one -/

theorem test_wellFormed_refuses_arg_of_bare_form : (Instr.readbyte 1).wellFormed = false := by decide
theorem test_wellFormed_accepts_bare_form : (Instr.readbyte 0).wellFormed = true := by decide
theorem test_wellFormed_accepts_wide_width : (Instr.readbits 40).wellFormed = true := by decide

/-! ### Decoding: words written bit by bit, ARG then OP, from R45 and R48 -/

theorem test_decode_init : decode 0b000000000000000000000010_00000001 = .ok (.init 2) := by decide
theorem test_decode_readbyte : decode 0b101010111100110111101111_00000010 = .ok (.readbyte 0xABCDEF) := by decide
theorem test_decode_readbits : decode 0b000000000000000000000101_00000011 = .ok (.readbits 5) := by decide
theorem test_decode_readflags : decode 0b000000000000000000000011_00000100 = .ok (.readflags 3) := by decide
theorem test_decode_skipbyte : decode 0b000000000000000000000000_00000101 = .ok (.skipbyte 0) := by decide
theorem test_decode_skipbits : decode 0b000000000000000000001101_00000110 = .ok (.skipbits 13) := by decide
theorem test_decode_skiplz : decode 0b000000000000000000000000_00000111 = .ok (.skiplz 0) := by decide
theorem test_decode_readcodenum : decode 0b000000000000000000000000_00001000 = .ok (.readcodenum 0) := by decide
theorem test_decode_readue : decode 0b000000000000000000000000_00001001 = .ok (.readue 0) := by decide
theorem test_decode_readse : decode 0b000000000000000000000000_00001010 = .ok (.readse 0) := by decide
theorem test_decode_readtcodenum : decode 0b000000000000000000000111_00001011 = .ok (.readtcodenum 7) := by decide
theorem test_decode_readme : decode 0b000000000000000000000011_00001100 = .ok (.readme 3) := by decide
theorem test_decode_readte : decode 0b111111111111111111111111_00001101 = .ok (.readte 0xFFFFFF) := by decide
theorem test_decode_illegal_low : decode 0b000000000000000000000000_00000000 = .error .illegalCommand := by decide
theorem test_decode_illegal_first_above : decode 0b000000000000000000000000_00001110 = .error .illegalCommand := by decide
theorem test_decode_illegal_high : decode 0b111111111111111111111111_11111111 = .error .illegalCommand := by decide
theorem test_encode_readbits : encode (.readbits 5) = 0x00000503 := by decide
theorem test_decodeTableWord : decodeTableWord 32 0x00000D06 = some (.skipbits 13) := by decide

/-! ### Commands: vectors of 95_test_vectors.md -/

theorem test_V1_init : answer (exec (.init 1) (cursor [0xA5, 0x3C] 13)) = some (0, 0, 0) := by decide
theorem test_V4_readbyte_misaligned : perform [0xA5, 0x3C] 3 0x00000002 = some (0, 0xA5, 11) := by decide
theorem test_V7_readbyte_last_byte : perform [0xA5, 0x3C] 11 0x00000002 = some (0, 0x3C, 19) := by decide
theorem test_V9_readbits : perform [0xA5, 0x3C] 4 0x00000C03 = some (0, 0x53C, 16) := by decide
theorem test_V19_readbits_five_bytes :
    perform [0xDE, 0xAD, 0xBE, 0xEF, 0x5A] 4 0x00002003 = some (0, 0xEADBEEF5, 36) := by decide
theorem test_V21_readflags : perform [0xA5, 0x3C] 0 0x00000304 = some (0, 5, 3) := by decide
theorem test_V28_readflags_misaligned_at_end : perform [0xA5, 0x3C] 19 0x00000204 = some (3, 0, 19) := by decide
theorem test_V30_skipbyte : perform [0xA5, 0x3C] 3 0x00000005 = some (0, 0, 11) := by decide
theorem test_V31_skipbyte_last_byte : perform [0xA5, 0x3C] 9 0x00000005 = some (1, 0, 9) := by decide
theorem test_V35_skipbits : perform [0xA5, 0x3C] 3 0x00000D06 = some (0, 0, 16) := by decide
theorem test_V36_skipbits_too_far : perform [0xA5, 0x3C] 3 0x00000E06 = some (1, 0, 3) := by decide
theorem test_V39_skiplz : perform [0x10] 0 0x00000007 = some (0, 3, 4) := by decide
theorem test_V43_skiplz_forty_zeros : perform [0, 0, 0, 0, 0, 0x80] 0 0x00000007 = some (0, 40, 41) := by decide
theorem test_V65_readcodenum : perform [0x28] 0 0x00000008 = some (0, 4, 5) := by decide
theorem test_V75_readcodenum_largest :
    perform [0, 0, 0, 0, 0xFF, 0xFF, 0xFF, 0xFF, 0x80] 0 0x00000008 = some (0, 0x1FFFFFFFE, 65) := by decide
theorem test_V74_readue : perform [0x00, 0x00, 0xC3, 0x50, 0x80] 0 0x00000009 = some (0, 100000, 33) := by decide
theorem test_V94_readue_long_before_truncated :
    perform [0, 0, 0, 0, 0x40, 0, 0, 0] 0 0x00000009 = some (2, 0, 0) := by decide
theorem test_V56_readse_negative : perform [0x28] 0 0x0000000A = some (0, 0xFFFFFFFFFFFFFFFE, 5) := by decide
theorem test_V77_readse_largest :
    perform [0, 0, 0, 0, 0xFF, 0xFF, 0xFF, 0xFF, 0] 0 0x0000000A = some (0, 0xFFFFFFFF, 65) := by decide
theorem test_V82_readtcodenum : perform [0xA5, 0x3C] 0 0x0000070B = some (4, 0, 0) := by decide
theorem test_V83_readme : perform [0xA5, 0x3C] 0 0x0000000C = some (4, 0, 0) := by decide
theorem test_V84_readte : perform [0xA5, 0x3C] 5 0x0000010D = some (4, 0, 5) := by decide
theorem test_V86_illegal : perform [0xA5, 0x3C] 0 0x00000000 = some (5, 0, 0) := by decide
theorem test_V80_suffix_cut_off : perform [0, 0, 0, 0, 0x80, 0, 0, 0] 0 0x00000009 = some (1, 0, 0) := by decide

/-! ### Status registers, handshake trace, buffer writes, assembler, system -/

/-- The table after V19, the response not yet taken. -/
theorem test_status_registers_after_V19 :
    ∃ t, step ((cursor [0xDE, 0xAD, 0xBE, 0xEF, 0x5A] 4).withFetchWord 32 0x00002003) = .next t ∧
      (t.statRdata 0, t.statRdata 1, t.statRdata 2, t.statRdata 3, t.statRdata 4, t.statRdata 5) =
        (0x24, 5, 0x10, 0xEADBEEF5, 0, 0) := ⟨_, rfl, by decide⟩

/-- The edges e0 to e4 of the handshake trace, one fact after each. -/
def traceEdges : List EdgeIn :=
  [{ cmdValid := true, cmdWord := 0x00000002 }, {}, { cmdValid := true, cmdWord := 0x00000007, rspReady := true },
   { cmdValid := true, cmdWord := 0x00000007 }, {}]

/-- BUSY, RSP_VALID, BITPOS and RSP_VALUE after the trace's first `k` edges. -/
def traceAfter (k : Nat) : Option (Bool × Bool × Nat × Nat) :=
  match Host.Core.run Sys2Proof.core k { cursor [0xA5, 0x3C] 0 with inputs := traceEdges } with
  | .next t => some (State.busy t, State.rspValid t, (State.bitpos t).toNat, (State.rspValue t).toNat)
  | .fault _ => none
  | .refused _ => none

theorem test_trace_e2 : traceAfter 3 = some (false, false, 8, 0xA5) := by decide
theorem test_trace_e4 : traceAfter 5 = some (false, true, 11, 2) := by decide

/-- BUF_BASE + a wraps in ADDR_W bits (R39). -/
theorem test_bufAddr_wraps : bufAddr { bufBase := 2 ^ 24 - 1, addrW := 24 } 3 = 2 := by decide
theorem test_bufIndex_wraps : bufIndex { bufBase := 2 ^ 24 - 1, addrW := 24 } 2 = 3 := by decide
theorem test_memory_write_of_unlisted_removes : Memory.write [(3, 7)] 3 0 = [] := by decide
theorem test_memory_write_in_order : Memory.write [(3, 7), (9, 1)] 5 2 = [(3, 7), (5, 2), (9, 1)] := by decide

theorem test_assemble_any_case : assembleLine "readbits 0x5 ; width".toList = .ok 0x00000503 := by decide
theorem test_assemble_digits_any_case : assembleLine ".word 0xdeadBEEF".toList = .ok 0xDEADBEEF := by decide
theorem test_assemble_not_a_digit : assembleLine "INIT 0xG".toList = .error .badLiteral := by decide
theorem test_assemble_hex_digit_in_decimal : assembleLine "INIT 1A".toList = .error .badLiteral := by decide
theorem test_assemble_width_unchecked : assembleLine "READBITS 40".toList = .ok 0x00002803 := by decide
theorem test_assemble_operand_too_large : assembleLine "INIT 16777216".toList = .error .operandRange := by decide
theorem test_disassemble_stray_arg : disassemble 0xABCDEF02 = ".word 0xABCDEF02".toList := by decide
theorem test_disassemble_decimal : disassemble 0x00000C03 = "READBITS 12".toList := by decide

/-! ### Witnesses: encoding and assembly -/

theorem witness_EncodeOfDecodeIsTheWord : decode 0xFFFFFF0D = .ok (.readte 0xFFFFFF) := by decide
theorem witness_DecodingIsTotal :
    (1 ≤ (0x00000001 : Word).toNat % 256 ∧ (0xFFFFFF0D : Word).toNat % 256 ≤ 13) ∧
    (0xFFFFFF00 : Word).toNat % 256 = 0 ∧ 14 ≤ (0x0000000E : Word).toNat % 256 := by decide
theorem witness_AssemblerEmitsTheEncoding :
    (Instr.readbits 0xFFFFFF).wellFormed = true ∧ (Instr.readbits 0).form ≠ .bare ∧ (Instr.skiplz 0).form = .bare ∧
    2 ^ 24 < 10 ^ 12 := by decide

/-! ### Witnesses: state and buffer -/

/-- The note of a write and the handshake may differ from those of reset. -/
theorem witness_ResetRegisterValues :
    ((cursor [] 0).inFlight 7).bitpos = State.reset.bitpos ∧ ((cursor [] 0).inFlight 7).len = State.reset.len ∧
    readsOrSkips (.readbits 1) ∧ readsOrSkips (.readflags 8) ∧ readsOrSkips (.skipbyte 7) := by
  simp only [readsOrSkips]; decide
theorem witness_InitAttachesTheBuffer :
    (∃ t, exec (.init 0) (cursor [0xA5] 5) = .next t) ∧ readsOrSkips (.readflags 1) :=
  ⟨⟨_, rfl⟩, by simp only [readsOrSkips]; decide⟩
theorem witness_BytePosAndBitInByteAreViews : 2 ^ 32 - 1 < 2 ^ 32 := by decide
theorem witness_StreamBitOfTheBuffer : 7 < 8 := by decide
theorem witness_TwoBytesReadBigEndian :
    (cursor [0xA5, 0x3C] 0).bitpos.toNat = 8 * 0 ∧ 0 + 2 ≤ (cursor [0xA5, 0x3C] 0).len.toNat := by decide
theorem witness_RequestsStayInsideTheBuffer : (cursor [0xA5, 0x3C] 15).mayRequest (.readbits 1) 1 :=
  ⟨0, by decide, by decide⟩

/-- The command answers a next state with status OK. -/
def succeeds (i : Instr) (s : State) : Prop := ∃ t, exec i s = .next t ∧ t.rspStatus = 0

/-- The command answers a next state with an error. -/
def fails (i : Instr) (s : State) : Prop := ∃ t, exec i s = .next t ∧ t.rspStatus ≠ 0

theorem witness_AdvanceIsTheBitsExamined :
    succeeds (.readbyte 0) (cursor [0xA5, 0x3C] 11) ∧ succeeds (.readbits 1) (cursor [0xA5, 0x3C] 15) ∧
    succeeds (.skipbits 13) (cursor [0xA5, 0x3C] 3) ∧ succeeds (.init 0) (cursor [] 0) :=
  ⟨⟨_, rfl, by decide⟩, ⟨_, rfl, by decide⟩, ⟨_, rfl, by decide⟩, ⟨_, rfl, by decide⟩⟩

/-- Two cursors whose buffers differ beyond the bits that READUE examines (5 bits of 0x28 and of 0x2F). -/
theorem witness_ResultDependsOnExaminedBitsOnly :
    (cursor [0x28] 0).bitpos = (cursor [0x2F] 0).bitpos ∧ (cursor [0x28] 0).len = (cursor [0x2F] 0).len ∧
    (∀ j < ((cursor [0x28] 0).examined (.readue 0)).2,
      (cursor [0x28] 0).bitAt (((cursor [0x28] 0).examined (.readue 0)).1 + j) =
        (cursor [0x2F] 0).bitAt (((cursor [0x28] 0).examined (.readue 0)).1 + j)) ∧
    (cursor [0x28] 0).bitAt 5 ≠ (cursor [0x2F] 0).bitAt 5 := by decide

/-! ### Witnesses: Bit Cursor commands, one for each clause at a boundary -/

theorem witness_ReadbyteReadsTheCurrentByte :
    (cursor [0xA5, 0x3C] 15).bitpos.toNat / 8 < (cursor [0xA5, 0x3C] 15).len.toNat ∧
    (cursor [0xA5, 0x3C] 16).len.toNat ≤ (cursor [0xA5, 0x3C] 16).bitpos.toNat / 8 := by decide
theorem witness_AlignedReadbyteIsReadbitsEight : (cursor [0xA5, 0x3C] 8).bitpos.toNat % 8 = 0 := by decide
theorem witness_ReadbitsPacksTheStreamBits :
    (1 ≤ (32 : Arg).toNat ∧ (32 : Arg).toNat ≤ 32 ∧
      (cursor [1, 2, 3, 4] 0).bitpos.toNat + (32 : Arg).toNat ≤ 8 * (cursor [1, 2, 3, 4] 0).len.toNat) ∧
    ((0 : Arg).toNat = 0 ∧ 32 < (33 : Arg).toNat) ∧
    (1 ≤ (1 : Arg).toNat ∧ (1 : Arg).toNat ≤ 32 ∧
      8 * (cursor [0xA5] 8).len.toNat < (cursor [0xA5] 8).bitpos.toNat + (1 : Arg).toNat) := by decide
theorem witness_ReadbitsInTwoParts :
    ∃ t u, (1 ≤ (31 : Arg).toNat ∧ 1 ≤ (1 : Arg).toNat ∧ (31 : Arg).toNat + (1 : Arg).toNat ≤ 32) ∧
      exec (.readbits 31) (cursor [1, 2, 3, 4] 0) = .next t ∧ t.rspStatus = 0 ∧
      exec (.readbits 1) t = .next u ∧ u.rspStatus = 0 :=
  ⟨_, _, by decide, rfl, by decide, rfl, by decide⟩
theorem witness_ReadflagsPacksTheFirstFlags :
    (1 ≤ (8 : Arg).toNat ∧ (8 : Arg).toNat ≤ 8 ∧ (cursor [0xA5, 0x3C] 8).bitpos.toNat % 8 = 0 ∧
      (cursor [0xA5, 0x3C] 8).bitpos.toNat / 8 < (cursor [0xA5, 0x3C] 8).len.toNat) ∧
    ((0 : Arg).toNat = 0 ∧ 8 < (9 : Arg).toNat) ∧ (cursor [0xA5, 0x3C] 15).bitpos.toNat % 8 ≠ 0 ∧
    ((cursor [0xA5, 0x3C] 16).bitpos.toNat % 8 = 0 ∧
      (cursor [0xA5, 0x3C] 16).len.toNat ≤ (cursor [0xA5, 0x3C] 16).bitpos.toNat / 8) := by decide
/-- A READFLAGS that succeeds and leaves a byte unfinished. -/
theorem witness_ReadflagsPacksTheFirstFlags_then :
    succeeds (.readflags 7) (cursor [0xA5] 0) ∧ (7 : Arg).toNat < 8 ∧ 1 ≤ (8 : Arg).toNat ∧ (8 : Arg).toNat ≤ 8 :=
  ⟨⟨_, rfl, by decide⟩, by decide⟩
theorem witness_SkipbyteAdvancesEight :
    (cursor [0xA5] 0).bitpos.toNat + 8 ≤ 8 * (cursor [0xA5] 0).len.toNat ∧
    8 * (cursor [0xA5] 1).len.toNat < (cursor [0xA5] 1).bitpos.toNat + 8 := by decide
theorem witness_SkipbitsAdvances :
    (1 ≤ (32 : Arg).toNat ∧ (32 : Arg).toNat ≤ 32 ∧
      (cursor [1, 2, 3, 4] 0).bitpos.toNat + (32 : Arg).toNat ≤ 8 * (cursor [1, 2, 3, 4] 0).len.toNat) ∧
    ((0 : Arg).toNat = 0 ∧ 32 < (33 : Arg).toNat) ∧
    8 * (cursor [0xA5] 8).len.toNat < (cursor [0xA5] 8).bitpos.toNat + (1 : Arg).toNat := by decide

/-- The 1 bit is the last bit of the buffer. -/
theorem witness_firstOneAfter : (cursor [0x01] 0).firstOneAfter (cursor [0x01] 0).bitpos.toNat 7 := by
  unfold State.firstOneAfter; decide
theorem noOneFrom_of_allZero (n : Nat) (p : Nat) (s : State) (hm : s.mem = []) (_ : s.len.toNat = n) : s.noOneFrom p := by
  intro q _ _
  simp [State.bitAt, State.buf, hm, Memory.read, Memory.unlisted]
theorem witness_SkiplzCountsTheZeros :
    (cursor [0x01] 0).firstOneAfter (cursor [0x01] 0).bitpos.toNat 7 ∧
    (cursor [0x00] 0).noOneFrom (cursor [0x00] 0).bitpos.toNat :=
  ⟨witness_firstOneAfter, noOneFrom_of_allZero 1 _ _ (by decide) (by decide)⟩

/-! ### Witnesses: Exp-Golomb commands -/

/-- k = 32 with a complete code, k = 33, k = 32 with the suffix cut off, and no 1 bit. -/
theorem witness_ReadcodenumAndReadueDecode :
    ((cursor [0, 0, 0, 0, 0x80, 0, 0, 0, 1] 0).firstOneAfter 0 32 ∧
      0 + 2 * 32 + 1 ≤ 8 * (cursor [0, 0, 0, 0, 0x80, 0, 0, 0, 1] 0).len.toNat) ∧
    (cursor [0, 0, 0, 0, 0x40, 0, 0, 0, 0] 0).firstOneAfter 0 33 ∧
    ((cursor [0, 0, 0, 0, 0x80, 0, 0, 0] 0).firstOneAfter 0 32 ∧
      8 * (cursor [0, 0, 0, 0, 0x80, 0, 0, 0] 0).len.toNat < 0 + 2 * 32 + 1) ∧
    (cursor [0x80] 0).firstOneAfter 0 0 ∧ (cursor [0x00] 0).noOneFrom 0 := by
  refine ⟨?_, ?_, ?_, ?_, noOneFrom_of_allZero 1 _ _ (by decide) (by decide)⟩ <;>
    (unfold State.firstOneAfter; decide)
theorem witness_ReadseIsTheZigzagOfTheCodeNumber :
    succeeds (.readcodenum 0) (cursor [0x28] 0) ∧ fails (.readcodenum 0) (cursor [0x01] 0) :=
  ⟨⟨_, rfl, by decide⟩, ⟨_, rfl, by decide⟩⟩
/-- The codes of 0 and 4, and the largest code (V75). -/
theorem witness_EveryCodeNumberRoundTrips :
    (cursor [0x80] 0).holds 0 (expGolombCode 0) ∧ (cursor [0x28] 0).holds 0 (expGolombCode 4) ∧
    (cursor [0, 0, 0, 0, 0xFF, 0xFF, 0xFF, 0xFF, 0x80] 0).holds 0 (expGolombCode (2 ^ 33 - 2)) := by
  refine ⟨?_, ?_, ?_⟩ <;> (unfold State.holds; decide)
theorem witness_DecodedCodeIsTheOnlyCode :
    succeeds (.readue 0) (cursor [0x28] 0) ∧ (cursor [0x28] 0).holds 0 (expGolombCode 4) :=
  ⟨⟨_, rfl, by decide⟩, witness_EveryCodeNumberRoundTrips.2.1⟩
/-- SKIPLZ fails; returns 0; returns k = 2 and READBITS 2 succeeds; returns k = 7 and READBITS 7 fails. -/
theorem witness_DecodeIsSkiplzThenReadbits :
    fails (.skiplz 0) (cursor [0x00] 0) ∧
    (∃ t, exec (.skiplz 0) (cursor [0x80] 0) = .next t ∧ t.rspStatus = 0 ∧ t.rspValue.toNat = 0) ∧
    (∃ t, exec (.skiplz 0) (cursor [0x28] 0) = .next t ∧ t.rspStatus = 0 ∧ 1 ≤ t.rspValue.toNat ∧
      t.rspValue.toNat < 2 ^ 24 ∧ succeeds (.readbits (BitVec.ofNat 24 t.rspValue.toNat)) t) ∧
    (∃ t, exec (.skiplz 0) (cursor [0x01] 0) = .next t ∧ t.rspStatus = 0 ∧ 1 ≤ t.rspValue.toNat ∧
      t.rspValue.toNat < 2 ^ 24 ∧ fails (.readbits (BitVec.ofNat 24 t.rspValue.toNat)) t) :=
  ⟨⟨_, rfl, by decide⟩, ⟨_, rfl, by decide, by decide⟩,
   ⟨_, rfl, by decide, by decide, by decide, _, rfl, by decide⟩,
   ⟨_, rfl, by decide, by decide, by decide, _, rfl, by decide⟩⟩
theorem witness_ResultRanges :
    succeeds (.skiplz 0) (cursor [0x01] 0) ∧ succeeds (.readue 0) (cursor [0x28] 0) ∧
    succeeds (.readse 0) (cursor [0x28] 0) :=
  ⟨⟨_, rfl, by decide⟩, ⟨_, rfl, by decide⟩, ⟨_, rfl, by decide⟩⟩
theorem witness_DeclaredFormsAreUnimplemented : ∃ i, i = Instr.readte 1 := ⟨_, rfl⟩

/-! ### Witnesses: errors, frames and invariants -/

theorem witness_FailureIsAtomic :
    fails (.readbits 9) (cursor [0xA5, 0x3C] 8) ∧
    ((cursor [0xA5] 0).inFlight 0).edge.rst = false ∧ ((cursor [0xA5] 0).inFlight 0).busy = true ∧
    ((cursor [0xA5] 0).inFlight 0).atEdge.waits ((cursor [0xA5] 0).inFlight 0).edge = false ∧
    ∃ t, step ((cursor [0xA5] 0).inFlight 0) = .next t ∧ t.rspStatus ≠ 0 :=
  ⟨⟨_, rfl, by decide⟩, by decide, by decide, by decide, _, rfl, by decide⟩
/-- Every status of a command occurs, and IllegalCommand at a completion edge. -/
theorem witness_ErrorTable :
    (answer (exec (.readte 1) (cursor [0xA5] 0))).map (·.1) = some 4 ∧
    (answer (exec (.readbits 33) (cursor [0xA5] 0))).map (·.1) = some 2 ∧
    (answer (exec (.readflags 1) (cursor [0xA5] 3))).map (·.1) = some 3 ∧
    (answer (exec (.skipbyte 0) (cursor [0xA5] 3))).map (·.1) = some 1 ∧
    (answer (exec (.skipbyte 0) (cursor [0xA5] 0))).map (·.1) = some 0 ∧
    ((cursor [0xA5] 0).inFlight 0).edge.rst = false ∧ ((cursor [0xA5] 0).inFlight 0).busy = true ∧
    ((cursor [0xA5] 0).inFlight 0).atEdge.waits ((cursor [0xA5] 0).inFlight 0).edge = false ∧
    decode ((cursor [0xA5] 0).inFlight 0).cmdLatch = .error .illegalCommand := by decide
/-- An idle cursor that is offered a word. -/
def offered (w : Word) : State := { cursor [0xA5, 0x3C] 0 with inputs := [{ cmdValid := true, cmdWord := w }] }
theorem witness_IllegalWordFails :
    ((offered 0).edge.rst = false ∧ (offered 0).busy = false ∧ (offered 0).rspValid = false ∧
      (offered 0).edge.cmdValid = true) ∧
    (((cursor [0xA5] 0).inFlight 0x0E).edge.rst = false ∧ ((cursor [0xA5] 0).inFlight 0x0E).busy = true ∧
      ((cursor [0xA5] 0).inFlight 0x0E).edge.stall = false ∧
      14 ≤ ((cursor [0xA5] 0).inFlight 0x0E).cmdLatch.toNat % 256 ∧
      ((cursor [0xA5] 0).inFlight 0xFFFFFF00).cmdLatch.toNat % 256 = 0) := by decide
theorem witness_WhatNoCommandChanges :
    succeeds (.readbyte 0) (cursor [0xA5] 0) ∧ ∀ l, Instr.readbyte 0 ≠ .init l := ⟨⟨_, rfl, by decide⟩, by simp⟩

/-- A cursor whose platform writes byte 9, outside its buffer, before the next edge. -/
def written : State := { cursor [0xA5] 0 with inputs := [{ writes := [(9, 7)] }] }
theorem witness_OnlyThePlatformWritesMemory :
    (∃ t, step written = .next t) ∧ written.mem.wf ∧ ∀ c ∈ written.edge.writes, c.1 ≠ 0 :=
  ⟨⟨_, rfl⟩, by decide, by decide⟩
theorem witness_OnlyInitWritesLen :
    ∃ t, step ((cursor [0xA5] 5).inFlight 0x00000201) = .next t ∧ t.len ≠ (cursor [0xA5] 5).len :=
  ⟨_, rfl, by decide⟩
/-- An INIT in flight that waits at the next edge. -/
def waitingInit : State := { (cursor [0xA5] 5).inFlight 0x00000301 with inputs := [{ stall := true }] }
theorem witness_BitposNeverDecreases :
    (∃ t, step ((cursor [0xA5] 5).inFlight 0x00000203) = .next t) ∧
    ((cursor [0xA5] 5).inFlight 0x00000203).edge.rst = false ∧
    (∀ l, decode ((cursor [0xA5] 5).inFlight 0x00000203).cmdLatch ≠ .ok (.init l)) ∧
    (∃ t, step waitingInit = .next t) ∧ waitingInit.edge.rst = false ∧
    waitingInit.atEdge.waits waitingInit.edge = true ∧
    ∃ t, exec (.init 3) (cursor [0xA5] 5) = .next t :=
  ⟨⟨_, rfl⟩, by decide, (fun l h => by cases h), ⟨_, rfl⟩, by decide, by decide, _, rfl⟩
/-- An overshot cursor with a command in flight meets the invariant. -/
theorem witness_StepKeepsTheInvariant :
    ((cursor [0xA5, 0x3C] 19).inFlight 0x00000103).Inv ∧
    ∃ t, step ((cursor [0xA5, 0x3C] 19).inFlight 0x00000103) = .next t :=
  ⟨by constructor <;> decide, _, rfl⟩
theorem witness_OvershootOnlyByReadbyte :
    (∃ t, exec (.readbyte 0) (cursor [0xA5, 0x3C] 11) = .next t ∧ (cursor [0xA5, 0x3C] 11).bitpos.toNat ≤ 8 * 2 ∧
      8 * t.len.toNat < t.bitpos.toNat) ∧ (cursor [0xA5, 0x3C] 19).Inv :=
  ⟨⟨_, rfl, by decide, by decide⟩, by constructor <;> decide⟩

/-! ### Witnesses: the command cycle -/

theorem witness_StepRunsTheDecodedCommand :
    ((cursor [0xA5] 0).inFlight 0x00000002).edge.rst = false ∧ ((cursor [0xA5] 0).inFlight 0x00000002).busy = true ∧
    ((cursor [0xA5] 0).inFlight 0x00000002).atEdge.waits ((cursor [0xA5] 0).inFlight 0x00000002).edge = false ∧
    decode ((cursor [0xA5] 0).inFlight 0x00000002).cmdLatch = .ok (.readbyte 0) ∧
    ((cursor [0xA5] 0).inFlight 0x00000002).atEdge.readsChangedBuffer (.readbyte 0) = false := by decide
theorem witness_AcceptAtReadyEdge :
    ((offered 2).edge.rst = false ∧ (offered 2).busy = false ∧ (offered 2).rspValid = false ∧
      (offered 2).edge.cmdValid = true) ∧ (cursor [0xA5] 0).edge.cmdValid = false := by decide
theorem witness_UnacceptedOfferIsForgotten :
    ((cursor [0xA5] 0).inFlight 2).busy = true ∧ ((cursor [0xA5] 0).respond 0 0).rspValid = true ∧
    ({ rst := true } : EdgeIn).rst = true := by decide
/-- A response that waits, at an edge with the given `rsp_ready`. -/
def responding (taken : Bool) : State := { (cursor [0xA5] 0).respond 0 7 with inputs := [{ rspReady := taken }] }
theorem witness_ResponseWaitsUntilTaken :
    ((responding true).edge.rst = false ∧ (responding true).busy = false ∧ (responding true).rspValid = true ∧
      (responding true).edge.rspReady = true) ∧ (responding false).edge.rspReady = false := by decide
/-- A command in flight that waits at the next edge. -/
def waiting : State := { (cursor [0xA5] 0).inFlight 2 with inputs := [{ stall := true }] }
theorem witness_OneCommandInFlight :
    (∃ t, step waiting = .next t ∧ t.busy = true) ∧ ∃ t, step (offered 2) = .next t ∧ t.busy = true :=
  ⟨⟨_, rfl, by decide⟩, ⟨_, rfl, by decide⟩⟩
/-- READBYTE in flight, and a platform that never answers its read. -/
def neverAnswered : State := { (cursor [0xA5] 0).inFlight 2 with rest := { unanswered := true } }
theorem witness_WaitingCommandShowsOldValues :
    (waiting.edge.rst = false ∧ waiting.busy = true ∧ waiting.atEdge.waits waiting.edge = true) ∧
    neverAnswered.edge.rst = false ∧ neverAnswered.busy = true ∧
    neverAnswered.atEdge.waits neverAnswered.edge = true := by decide
theorem witness_ResetEdgeClearsEveryRegister : ({ waiting with inputs := [{ rst := true }] } : State).edge.rst = true := by
  decide
/-- Empty, exactly at the end, and beyond it. -/
theorem witness_NoReadPastTheEnd :
    (8 * (cursor [] 0).len.toNat ≤ (cursor [] 0).bitpos.toNat ∧ readsOrSkips (.readflags 8) ∧
      (cursor [] 0).bitpos.toNat % 8 = 0) ∧
    (8 * (cursor [0xA5] 8).len.toNat ≤ (cursor [0xA5] 8).bitpos.toNat ∧ readsOrSkips (.readbits 32)) ∧
    8 * (cursor [0xA5] 15).len.toNat ≤ (cursor [0xA5] 15).bitpos.toNat ∧ readsOrSkips (.skiplz 0) := by
  simp only [readsOrSkips]; decide
/-- SKIPBYTE in flight makes no read, so it completes although the platform never answers. -/
def needsNoAnswer : State := { (cursor [0xA5] 0).inFlight 5 with rest := { unanswered := true } }
theorem witness_CommandInFlightResponds :
    (waiting.busy = true ∧ waiting.bufChanged = false ∧ (∀ e ∈ waiting.inputs, e.rst = false ∧ e.writes = []) ∧
      waiting.rest.rst = false ∧ waiting.rest.writes = [] ∧ waiting.commandReads = true ∧
      waiting.rest.unanswered = false) ∧
    needsNoAnswer.commandReads = false ∧ needsNoAnswer.rest.unanswered = true := by decide
theorem test_skipbyte_needs_no_answer : ∃ t, step needsNoAnswer = .next t ∧ t.bitpos = 8 ∧ t.rspValid = true :=
  ⟨_, rfl, by decide⟩
theorem test_never_answered_read_is_stuck : step neverAnswered = .next neverAnswered := rfl
/-- Never answered, never taken, never offered a command. -/
theorem witness_EndlessWaits :
    (neverAnswered.inputs = [] ∧ neverAnswered.rest.rst = false ∧ neverAnswered.rest.writes = [] ∧
      neverAnswered.busy = true ∧ neverAnswered.commandReads = true ∧ neverAnswered.rest.unanswered = true) ∧
    (((cursor [0xA5] 0).respond 0 7).inputs = [] ∧ ((cursor [0xA5] 0).respond 0 7).busy = false ∧
      ((cursor [0xA5] 0).respond 0 7).rspValid = true ∧ ((cursor [0xA5] 0).respond 0 7).rest.rspReady = false) ∧
    (State.reset.inputs = [] ∧ State.reset.busy = false ∧ State.reset.rspValid = false ∧
      State.reset.rest.cmdValid = false) := by decide

/-- READBYTE in flight when the platform writes byte 0 of the attached buffer. -/
def disturbed : State := { (cursor [0xA5] 0).inFlight 2 with inputs := [{ writes := [(0, 7)] }] }
theorem witness_OnlyAChangedBufferIsRefused :
    step disturbed = .refused .bufferChanged ∧ disturbed.edge.rst = false ∧ disturbed.busy = true ∧
    disturbed.atEdge.waits disturbed.edge = false ∧ decode disturbed.cmdLatch = .ok (.readbyte 0) ∧
    (disturbed.atEdge.examined (.readbyte 0)).2 ≠ 0 ∧ disturbed.platform.wf ∧ (0, 7) ∈ disturbed.edge.writes ∧
    0 < disturbed.len.toNat ∧ 0 = bufAddr disturbed.platform 0 := ⟨rfl, by decide⟩
theorem witness_InitSeesTheNewContents :
    (cursor [0xA5] 0).platform.wf ∧ 0 < 2 ^ (cursor [0xA5] 0).platform.addrW ∧ (cursor [0xA5] 0).mem.wf ∧
    ∃ t, exec (.init 1) ((cursor [0xA5] 0).platformWrite (bufAddr (cursor [0xA5] 0).platform 0, 7)) = .next t :=
  ⟨by decide, by decide, by decide, _, rfl⟩
theorem witness_UnitsAreIndependent :
    (∃ vs, stepUnit [offered 2, waiting] 0 = .next vs) ∧ 0 < [offered 2, waiting].length := ⟨⟨_, rfl⟩, by decide⟩

end Sys2Proof.Tests
end

section
/-! ### The stream bits of one byte (R9, R34, R39) -/

namespace Sys2Proof.Machine

/-- The bits of buffer byte `a` stand at the stream positions from `8 * a` on, the most significant first. -/
theorem State.bitAt_eight_mul_add (s : State) (a : Nat) {j : Nat} (hj : j < 8) :
    s.bitAt (8 * a + j) = (s.buf a).getLsbD (7 - j) := by
  have hbyte : (8 * a + j) / 8 = a := by omega
  have hbit : (8 * a + j) % 8 = j := by omega
  rw [State.bitAt, hbyte, hbit]

/-- Settles O13: the position splits into its byte and its bit, and `buf` reads that byte at its `bufAddr`. -/
theorem streamBitOfTheBuffer : Obligations.StreamBitOfTheBuffer := by
  intro s a j hj
  rw [s.bitAt_eight_mul_add a hj, State.buf, bufAddr]

end Sys2Proof.Machine
end

section
/-! ### What a next state can be: the cases of `exec` and `step`, read from the state they answer -/

namespace Sys2Proof.Machine

variable {s t : State} {i : Instr}

/-- The next state of a command: a fresh cursor (R58), a failure (R77), or a cursor that has moved without wrapping. -/
theorem exec_next_cases (h : exec i s = .next t) :
    (∃ l, i = .init l ∧ t = (s.attach l).respond statusOK 0) ∨
    (∃ e, t = s.raise e) ∨
    (∃ n v, t = s.advance (s.bitpos.toNat + n) v ∧ t.bitpos.toNat = s.bitpos.toNat + n ∧
      (s.bitpos.toNat + n ≤ 8 * s.len.toNat ∨
        (∃ a, i = .readbyte a) ∧ n = 8 ∧ s.bitpos.toNat / 8 < s.len.toNat)) := by
  rcases exec_cases s i with ⟨l, hi, hl⟩ | ⟨e, _, he⟩ | ⟨n, v, _, hn, _, hend⟩
  · exact .inl ⟨l, hi, next_inj (h.symm.trans hl)⟩
  · exact .inr (.inl ⟨e, next_inj (h.symm.trans he)⟩)
  · obtain rfl := next_inj (h.symm.trans hn)
    exact .inr (.inr ⟨n, v, rfl, s.advance_bitpos_toNat n v (by omega), hend⟩)

/-- The next state of a step: reset, the command completed, IllegalCommand, or an edge that completes nothing. -/
theorem step_next_cases (h : step s = .next t) :
    (s.edge.rst = true ∧ t = s.atEdge.resetRegisters) ∨
    (∃ i, s.busy = true ∧ s.atEdge.waits s.edge = false ∧ decode s.cmdLatch = .ok i ∧ exec i s.atEdge = .next t) ∨
    t = s.atEdge.raise .illegalCommand ∨
    t = s.atEdge ∨
    t = s.atEdge.takeResponse ∨
    (s.rspValid = false ∧ ∃ w, t = s.atEdge.accept w) := by
  rcases step_cases s with ⟨hr, hs⟩ | ⟨_, _, _, hs⟩ | ⟨_, _, _, _, hs⟩ | ⟨_, _, _, _, _, _, hs⟩ |
    ⟨i, _, hb, hw, hd, _, hs⟩ | ⟨_, _, _, _, hs⟩ | ⟨_, _, _, _, hs⟩ | ⟨_, _, hv, _, hs⟩ | ⟨_, _, _, _, hs⟩ <;>
    rw [hs] at h
  · exact .inl ⟨hr, (next_inj h).symm⟩
  · exact .inr (.inr (.inr (.inl (next_inj h).symm)))
  · exact .inr (.inr (.inl (next_inj h).symm))
  · cases h
  · exact .inr (.inl ⟨i, hb, hw, hd, h⟩)
  · exact .inr (.inr (.inr (.inr (.inl (next_inj h).symm))))
  · exact .inr (.inr (.inr (.inl (next_inj h).symm)))
  · exact .inr (.inr (.inr (.inr (.inr ⟨hv, _, (next_inj h).symm⟩))))
  · exact .inr (.inr (.inr (.inl (next_inj h).symm)))

/-- Without reset only a command that completes moves the cursor or attaches a buffer. -/
theorem step_cursor_cases (h : step s = .next t) (hr : s.edge.rst = false) :
    (∃ i, s.busy = true ∧ s.atEdge.waits s.edge = false ∧ decode s.cmdLatch = .ok i ∧ exec i s.atEdge = .next t) ∨
    (t.bitpos = s.bitpos ∧ t.len = s.len) := by
  rcases step_next_cases h with ⟨hr', _⟩ | hx | rfl | rfl | rfl | ⟨_, w, rfl⟩
  · simp [hr] at hr'
  · exact .inl hx
  all_goals exact .inr (by simp)

/-- An edge at which the command in flight waits only lets the platform write. -/
theorem step_of_waits (hr : s.edge.rst = false) (hb : s.busy = true) (hw : s.atEdge.waits s.edge = true) :
    step s = .next s.atEdge := by
  simp [step_eq, clockEdge, hr, hb, hw]

end Sys2Proof.Machine
end

section
/-! ### The invariant (R27, R22, R77, R20): each operation keeps it, so each command and each step does -/

namespace Sys2Proof.Machine

variable {s t : State} {i : Instr}

theorem State.Inv.atEdge (h : s.Inv) : s.atEdge.Inv where
  bitposInRange := by simpa using h.bitposInRange
  statusLegal := by simpa using h.statusLegal
  errorLeavesZero := by simpa using h.errorLeavesZero
  notBusyAndValid := by simpa using h.notBusyAndValid
  memCanonical := s.atEdge_wf h.memCanonical
  addrWide := by simpa using h.addrWide

theorem State.Inv.setBitpos (h : s.Inv) {p : Nat} (hp : p ≤ 8 * s.len.toNat + 7) : (s.setBitpos p).Inv := by
  have hlen := s.bitLen_bound
  have hpos : (s.setBitpos p).bitpos.toNat = p := toNat_ofNat32 p (by omega)
  exact { h with bitposInRange := hpos.trans_le hp }

theorem State.Inv.attach (h : s.Inv) (l : Arg) : (s.attach l).Inv :=
  { h with bitposInRange := Nat.zero_le _ }

/-- A response clears BUSY, so it may set RSP_VALID. -/
theorem State.Inv.respond (h : s.Inv) {c : BitVec 3} {v : Value} (hc : c.toNat ≤ 5) (hv : c ≠ 0 → v = 0) :
    (s.respond c v).Inv :=
  { h with
    statusLegal := hc
    errorLeavesZero := hv
    notBusyAndValid := by simp }

theorem ErrorKind.code_le (e : ErrorKind) : e.code.toNat ≤ 5 := by cases e <;> decide

theorem State.Inv.raise (h : s.Inv) (e : ErrorKind) : (s.raise e).Inv := h.respond e.code_le fun _ => rfl

theorem State.Inv.respondOK (h : s.Inv) (v : Value) : (s.respond statusOK v).Inv :=
  h.respond (Nat.zero_le 5) fun hne => absurd rfl hne

theorem State.Inv.resetRegisters (h : s.Inv) : s.resetRegisters.Inv where
  bitposInRange := Nat.zero_le _
  statusLegal := Nat.zero_le _
  errorLeavesZero := fun _ => rfl
  notBusyAndValid := by simp
  memCanonical := h.memCanonical
  addrWide := h.addrWide

theorem State.Inv.takeResponse (h : s.Inv) : s.takeResponse.Inv :=
  { h with notBusyAndValid := by simp }

/-- A command is accepted only while no response waits (R91). -/
theorem State.Inv.accept (h : s.Inv) (hv : s.rspValid = false) (w : Word) : (s.accept w).Inv :=
  { h with notBusyAndValid := by simp [hv] }

theorem exec_keeps_inv (h : s.Inv) (hx : exec i s = .next t) : t.Inv := by
  rcases exec_next_cases hx with ⟨l, _, rfl⟩ | ⟨e, rfl⟩ | ⟨n, v, rfl, _, hend⟩
  · exact (h.attach l).respondOK 0
  · exact h.raise e
  · exact (h.setBitpos (by omega)).respondOK v

/-- Settles O45: each of the things a step can do keeps the invariant, the writes before the edge included. -/
theorem stepKeepsTheInvariant : Obligations.StepKeepsTheInvariant := by
  intro s t h hstep
  rcases step_next_cases hstep with ⟨_, rfl⟩ | ⟨i, _, _, _, hx⟩ | rfl | rfl | rfl | ⟨hv, w, rfl⟩
  · exact h.atEdge.resetRegisters
  · exact exec_keeps_inv h.atEdge hx
  · exact h.atEdge.raise _
  · exact h.atEdge
  · exact h.atEdge.takeResponse
  · exact h.atEdge.accept (by simpa using hv) w

/-- Settles O44: every register is 0 after reset, the memory is empty and the chosen ADDR_W is 32. -/
theorem resetMeetsTheInvariant : Obligations.ResetMeetsTheInvariant where
  bitposInRange := Nat.zero_le _
  statusLegal := Nat.zero_le _
  errorLeavesZero := fun _ => rfl
  notBusyAndValid := by decide
  memCanonical := Memory.wf_nil
  addrWide := by decide

end Sys2Proof.Machine
end

section
/-! ### How LEN and BITPOS move (R15, R26, R27) -/

namespace Sys2Proof.Machine

variable {s t : State} {i : Instr}

theorem exec_init_eq (l : Arg) (s : State) : exec (.init l) s = .next ((s.attach l).respond statusOK 0) := rfl

/-- Every command but INIT keeps LEN and does not lower BITPOS. -/
theorem exec_cursor_of_not_init (hx : exec i s = .next t) (hi : ∀ l, i ≠ .init l) :
    t.len = s.len ∧ s.bitpos.toNat ≤ t.bitpos.toNat := by
  rcases exec_next_cases hx with ⟨l, rfl, _⟩ | ⟨e, rfl⟩ | ⟨n, v, rfl, hpos, _⟩
  · exact absurd rfl (hi l)
  · exact ⟨rfl, Nat.le_refl _⟩
  · exact ⟨rfl, by omega⟩

/-- Settles O42: only a command that completes can change LEN, and of the commands only INIT does. -/
theorem onlyInitWritesLen : Obligations.OnlyInitWritesLen := by
  intro s t hstep hr hne
  rcases step_cursor_cases hstep hr with ⟨i, hb, _, hd, hx⟩ | ⟨_, hlen⟩
  · by_cases hi : ∃ l, i = .init l
    · obtain ⟨l, rfl⟩ := hi
      obtain rfl := next_inj ((exec_init_eq l s.atEdge).symm.trans hx)
      exact ⟨hb, l, hd, rfl⟩
    · have hlen := (exec_cursor_of_not_init hx (not_exists.1 hi)).1
      exact absurd (hlen.trans s.atEdge_len) hne
  · exact absurd hlen hne

/-- Settles O43: a command that completes is no INIT, so it moves the cursor forward or leaves it. -/
theorem bitposNeverDecreases : Obligations.BitposNeverDecreases := by
  refine ⟨fun s t hstep hr hinit => ?_, fun l s t hx => ?_⟩
  · rcases step_cursor_cases hstep hr with ⟨i, hb, hw, hd, hx⟩ | ⟨hpos, _⟩
    · have hi : ∀ l, i ≠ .init l := fun l e => hinit hb hw l (e ▸ hd)
      simpa using (exec_cursor_of_not_init hx hi).2
    · rw [hpos]
  · obtain rfl := next_inj ((exec_init_eq l s).symm.trans hx)
    rfl

/-- In range, BITPOS is below 2^27, so its bits from 27 on are 0. -/
theorem State.Inv.bitpos_high (h : s.Inv) : s.bitpos.extractLsb' 27 5 = 0 := by
  have hrange := h.bitposInRange
  have hlen := s.bitLen_bound
  apply BitVec.eq_of_toNat_eq
  rw [BitVec.extractLsb'_toNat, Nat.shiftRight_eq_div_pow, Nat.div_eq_of_lt (by omega)]
  rfl

/-- Settles O46: among the moves only READBYTE's 8 bits can pass the end, from the last byte and not from its start. -/
theorem overshootOnlyByReadbyte : Obligations.OvershootOnlyByReadbyte := by
  refine ⟨fun i s t hx hin hout => ?_, fun s h => h.bitpos_high⟩
  rcases exec_next_cases hx with ⟨l, _, rfl⟩ | ⟨e, rfl⟩ | ⟨n, v, rfl, hpos, hend⟩
  · exact absurd hout (Nat.not_lt_zero _)
  · exact absurd hin (Nat.not_le.2 hout)
  · rw [hpos, State.advance_len] at hout ⊢
    rcases hend with hend | ⟨hread, rfl, hbyte⟩
    · omega
    · exact ⟨hread, by omega⟩

end Sys2Proof.Machine
end

section
/-! ### Reads and skips with no bit left (R27, R59, R89) -/

namespace Sys2Proof.Machine

variable {s : State}

theorem State.not_firstOneAfter_of_end (hend : 8 * s.len.toNat ≤ s.bitpos.toNat) (z : Nat) :
    ¬s.firstOneAfter s.bitpos.toNat z := by
  rintro ⟨hz, _, _⟩
  omega

/-- The three decoding commands find no 1 bit there. -/
theorem execCode_endOfStream_of_end (hend : 8 * s.len.toNat ≤ s.bitpos.toNat) (i : Instr) (val : Nat → Value)
    (hi : (∃ a, (i = .readcodenum a ∨ i = .readue a) ∧ val = zext64) ∨
      (∃ a, i = .readse a ∧ val = fun c => twos64 (signedOfCodeNum c))) :
    exec i s = .next (s.raise .endOfStream) := by
  have hno := State.not_firstOneAfter_of_end hend
  rcases execCode_cases s i val hi with ⟨_, h⟩ | ⟨k, hk, _⟩ | ⟨k, hk, _⟩ | ⟨k, hk, _⟩
  · exact h
  all_goals exact absurd hk (hno k)

/-- READFLAGS checks its alignment before the end of the buffer (R80). -/
theorem exec_endOfStream_of_end {i : Instr} (hend : 8 * s.len.toNat ≤ s.bitpos.toNat) (hi : readsOrSkips i)
    (haligned : ∀ n, i = .readflags n → s.bitpos.toNat % 8 = 0) : exec i s = .next (s.raise .endOfStream) := by
  cases i with
  | init _ | readtcodenum _ | readme _ | readte _ => exact hi.elim
  | readbyte a =>
    rcases execReadbyte_cases s a with ⟨_, h⟩ | ⟨hb, _⟩
    · exact h
    · omega
  | readbits n =>
    obtain ⟨h1, h32⟩ : 1 ≤ n.toNat ∧ n.toNat ≤ 32 := hi
    rcases execReadbits_cases s n with ⟨hw, _⟩ | ⟨_, _, _, h⟩ | ⟨_, _, ha, _⟩
    · omega
    · exact h
    · omega
  | readflags n =>
    obtain ⟨h1, h8⟩ : 1 ≤ n.toNat ∧ n.toNat ≤ 8 := hi
    rcases execReadflags_cases s n with ⟨hw, _⟩ | ⟨_, _, hm, _⟩ | ⟨_, _, _, _, h⟩ | ⟨_, _, _, hb, _⟩
    · omega
    · exact absurd (haligned n rfl) hm
    · exact h
    · omega
  | skipbyte a =>
    rcases execSkipbyte_cases s a with ⟨_, h⟩ | ⟨ha, _⟩
    · exact h
    · omega
  | skipbits n =>
    obtain ⟨h1, h32⟩ : 1 ≤ n.toNat ∧ n.toNat ≤ 32 := hi
    rcases execSkipbits_cases s n with ⟨hw, _⟩ | ⟨_, _, _, h⟩ | ⟨_, _, ha, _⟩
    · omega
    · exact h
    · omega
  | skiplz a =>
    rcases execSkiplz_cases s a with ⟨_, h⟩ | ⟨z, hz, _⟩
    · exact h
    · exact absurd hz (State.not_firstOneAfter_of_end hend z)
  | readcodenum a => exact execCode_endOfStream_of_end hend _ _ (.inl ⟨a, .inl rfl, rfl⟩)
  | readue a => exact execCode_endOfStream_of_end hend _ _ (.inl ⟨a, .inr rfl, rfl⟩)
  | readse a => exact execCode_endOfStream_of_end hend _ _ (.inr ⟨a, rfl, rfl⟩)

/-- Settles O54: the state written out is that of the failure with EndOfStream. -/
theorem noReadPastTheEnd : Obligations.NoReadPastTheEnd :=
  fun _ _ hend hi haligned => exec_endOfStream_of_end hend hi haligned

/-- Settles O8: position 0 is aligned and at the end of an empty buffer. -/
theorem resetRegisterValues : Obligations.ResetRegisterValues := by
  refine ⟨rfl, rfl, rfl, rfl, rfl, rfl, rfl, by decide, fun i s hpos hlen hi => ?_⟩
  have hpos0 : s.bitpos.toNat = 0 := by rw [hpos]; rfl
  have hlen0 : s.len.toNat = 0 := by rw [hlen]; rfl
  exact exec_endOfStream_of_end (by omega) hi fun _ _ => by omega

end Sys2Proof.Machine
end

section
/-! ### Views, status registers and ports (R14, R22, R23, R30) -/

namespace Sys2Proof.Machine

variable (s : State)

/-- Settles O9: both views are computed from BITPOS alone, the written position included. -/
theorem bytePosAndBitInByteAreViews : Obligations.BytePosAndBitInByteAreViews := by
  refine ⟨fun s => ⟨rfl, s.bytepos_eq, rfl, s.bitinbyte_eq⟩, fun s p hp => ?_⟩
  rw [State.bytepos_eq, State.bitinbyte_eq, State.setBitpos_bitpos, toNat_ofNat32 p hp]
  exact ⟨rfl, rfl⟩

/-- R22, status register 1: LEN below eight zero bits. -/
theorem setWidth_len_fields (l : Arg) :
    (l.setWidth 32).extractLsb' 0 24 = l ∧ (l.setWidth 32).extractLsb' 24 8 = 0 := by
  constructor <;> apply BitVec.eq_of_getLsbD_eq <;> intro j hj
  · have h32 : j < 32 := by omega
    simp [hj, h32]
  · simp

/-- R22, status register 2, any bit of it. -/
theorem State.statusWord_getLsbD (j : Nat) : s.statusWord.getLsbD j =
    if j < 3 then s.rspStatus.getLsbD j else if j = 4 then s.rspValid else if j = 5 then s.busy else false := by
  change BitVec.getLsbD (w := 26 + (1 + (1 + (1 + 3)))) (0#26 ++ (_ ++ (_ ++ (0#1 ++ _)))) j = _
  simp only [BitVec.getLsbD_append, BitVec.getLsbD_ofBool, BitVec.getLsbD_zero]
  obtain h | rfl | rfl | rfl | h : j < 3 ∨ j = 3 ∨ j = 4 ∨ j = 5 ∨ 6 ≤ j := by omega
  · rw [if_pos (by omega), if_pos (by omega), if_pos (by omega), if_pos h, if_pos h]
  · rfl
  · rfl
  · rfl
  · rw [if_neg (by omega), if_neg (by omega), if_neg (by omega), if_neg (by omega)]

theorem State.statusWord_fields :
    s.statusWord.extractLsb' 0 3 = s.rspStatus ∧ s.statusWord.getLsbD 3 = false ∧
    s.statusWord.getLsbD 4 = s.rspValid ∧ s.statusWord.getLsbD 5 = s.busy ∧ s.statusWord.extractLsb' 6 26 = 0 := by
  refine ⟨?_, s.statusWord_getLsbD 3, s.statusWord_getLsbD 4, s.statusWord_getLsbD 5, ?_⟩ <;>
    apply BitVec.eq_of_getLsbD_eq <;> intro j hj <;> rw [BitVec.getLsbD_extractLsb', State.statusWord_getLsbD]
  · simp [hj]
  · have h3 : ¬6 + j < 3 := by omega
    have h4 : ¬6 + j = 4 := by omega
    have h5 : ¬6 + j = 5 := by omega
    simp [h3, h4, h5]

/-- R22, status registers 4 and 3: the two halves make up the value. -/
theorem value_halves (v : Value) : v.extractLsb' 32 32 ++ v.extractLsb' 0 32 = (v : BitVec (32 + 32)) :=
  (BitVec.extractLsb'_append_extractLsb'_eq_extractLsb' rfl).trans BitVec.extractLsb'_eq_self

/-- Settles O10: one lemma for each register that has fields. -/
theorem statusRegisterFields : Obligations.StatusRegisterFields :=
  fun s => ⟨rfl, setWidth_len_fields s.len, s.statusWord_fields, value_halves s.rspValue⟩

/-- An edge does not look at `stat_addr`. -/
theorem clockEdge_statAddr (e : EdgeIn) (n : BitVec 3) : clockEdge { e with statAddr := n } s = clockEdge e s := rfl

/-- Settles O11: the numbers 5 to 7 name no register, and the writes before an edge and the edge are the same
whatever `stat_addr` is. -/
theorem reservedStatusRegistersReadZero : Obligations.ReservedStatusRegistersReadZero :=
  ⟨fun _ => ⟨rfl, rfl, rfl⟩, fun s e es n => clockEdge_statAddr (State.atEdge { s with inputs := e :: es }) e n⟩

/-- Settles O12: each handshake output is a conjunction of NOT `rst` and register bits. -/
theorem handshakeOutputs : Obligations.HandshakeOutputs := by
  intro s e
  refine ⟨?_, ?_, rfl, rfl, rfl⟩
  · simp [State.outputs, State.ready]
  · simp [State.outputs]

/-- The writes before an edge show in no status register. -/
@[simp] theorem State.atEdge_statRdata (n : BitVec 3) : s.atEdge.statRdata n = s.statRdata n := by
  simp [State.statRdata, State.statusWord]

/-- Settles O52: such an edge only lets the platform write, which no status register shows. -/
theorem waitingCommandShowsOldValues : Obligations.WaitingCommandShowsOldValues :=
  fun s hr hb hw => ⟨step_of_waits hr hb hw, s.atEdge_busy.trans hb, s.atEdge_statRdata⟩

end Sys2Proof.Machine
end

section
/-! ### READBITS over two whole bytes (R35, R60) -/

namespace Sys2Proof.Machine

variable (s : State)

theorem State.bits_whole_byte (a : Nat) : s.bits (8 * a) 8 = (s.buf a).toNat := by
  rw [s.bits_of_byte a 8 (Nat.le_refl 8), Nat.sub_self, Nat.pow_zero, Nat.div_one]

/-- R35: the byte read first is the more significant. -/
theorem State.bits_two_bytes (a : Nat) : s.bits (8 * a) 16 = (s.buf a).toNat * 256 + (s.buf (a + 1)).toNat := by
  calc s.bits (8 * a) 16 = s.bits (8 * a) 8 * 2 ^ 8 + s.bits (8 * (a + 1)) 8 := s.bits_add (8 * a) 8 8
    _ = (s.buf a).toNat * 256 + (s.buf (a + 1)).toNat := by simp only [s.bits_whole_byte, Nat.reducePow]

/-- Settles O14: the width is legal and two bytes are left, so READBITS succeeds with those 16 bits. -/
theorem twoBytesReadBigEndian : Obligations.TwoBytesReadBigEndian := by
  intro s a hpos hlen
  have h16 : (16 : Arg).toNat = 16 := rfl
  rcases execReadbits_cases s 16 with ⟨hw, _⟩ | ⟨_, _, hend, _⟩ | ⟨_, _, _, h⟩
  · omega
  · omega
  · rw [h16, hpos, s.bits_two_bytes] at h
    exact h

end Sys2Proof.Machine
end

section
/-! ### The bits a command examines: they lie in the buffer, and a reading command advances by as many (R33, R38) -/

namespace Sys2Proof.Machine

variable {s t : State} {i : Instr}

theorem State.not_noOneFrom_of_firstOneAfter {p z : Nat} (hz : s.firstOneAfter p z) : ¬s.noOneFrom p := by
  obtain ⟨hend, hone, _⟩ := hz
  intro hno
  simp [hno (p + z) (by omega) hend] at hone

/-- A complete code of at most 32 leading zeros is examined as a whole. -/
theorem State.codeBits_of_complete {p k : Nat} (hk : s.firstOneAfter p k) (h32 : k ≤ 32)
    (hend : p + 2 * k + 1 ≤ 8 * s.len.toNat) : s.codeBits p = 2 * k + 1 := by
  rcases s.codeBits_cases p with ⟨hno, _⟩ | ⟨j, hj, hcut, _⟩ | ⟨j, hj, _, _, h⟩
  · exact absurd hno (State.not_noOneFrom_of_firstOneAfter hk)
  · obtain rfl := s.firstOneAfter_unique p j k hj hk
    omega
  · obtain rfl := s.firstOneAfter_unique p j k hj hk
    exact h

/-- CodeNum examines no bit beyond the end of the buffer. -/
theorem State.add_lt_of_lt_codeBits {p j : Nat} (hj : j < s.codeBits p) : p + j < 8 * s.len.toNat := by
  rcases s.codeBits_cases p with ⟨_, h⟩ | ⟨k, ⟨hone, _, _⟩, _, h⟩ | ⟨k, _, _, hend, h⟩ <;> omega

/-- A range that counts only where a check passes ends where the check says. -/
theorem add_lt_of_lt_checked {check : Prop} [Decidable check] {p n bound j : Nat} (hend : check → p + n ≤ bound)
    (hj : j < (if check then (p, n) else (0, 0)).2) : (if check then (p, n) else (0, 0)).1 + j < bound := by
  by_cases h : check
  · rw [if_pos h] at hj ⊢
    exact Nat.lt_of_lt_of_le (Nat.add_lt_add_left hj p) (hend h)
  · rw [if_neg h] at hj
    exact absurd hj (Nat.not_lt_zero j)

/-- R33: every bit a command examines lies inside the buffer. -/
theorem State.examined_lt_bitLen (i : Instr) {j : Nat} (hj : j < (s.examined i).2) :
    (s.examined i).1 + j < 8 * s.len.toNat := by
  cases i with
  | init _ | skipbyte _ | skipbits _ | readtcodenum _ | readme _ | readte _ => exact absurd hj (Nat.not_lt_zero j)
  | readbyte a =>
    rw [s.examined_readbyte] at hj ⊢
    exact add_lt_of_lt_checked (fun _ => by omega) hj
  | readbits n =>
    rw [s.examined_readbits] at hj ⊢
    exact add_lt_of_lt_checked (fun _ => by omega) hj
  | readflags n =>
    rw [s.examined_readflags] at hj ⊢
    exact add_lt_of_lt_checked (fun _ => by omega) hj
  | skiplz a =>
    cases hz : s.lz s.bitpos.toNat with
    | none =>
      rw [s.examined_skiplz_of_noOne a ((s.lz_eq_none _).1 hz)] at hj ⊢
      dsimp only at hj ⊢
      omega
    | some z =>
      have hone := (s.lz_eq_some _ _).1 hz
      rw [s.examined_skiplz_of_firstOne a z hone] at hj ⊢
      have hend := hone.1
      dsimp only at hj ⊢
      omega
  | readcodenum _ | readue _ | readse _ => exact State.add_lt_of_lt_codeBits hj

/-- Settles O15: the byte of an examined bit has an index below LEN. -/
theorem requestsStayInsideTheBuffer : Obligations.RequestsStayInsideTheBuffer := by
  rintro s i x ⟨j, hj, rfl⟩
  have hlt := State.examined_lt_bitLen i hj
  exact ⟨_, by omega, rfl⟩

/-- A command that answers a failure did not succeed. -/
theorem not_raise_of_status_ok {e : ErrorKind} (hx : exec i s = .next t) (hok : t.rspStatus = 0) :
    exec i s ≠ .next (s.raise e) := by
  intro he
  obtain rfl := next_inj (hx.symm.trans he)
  exact s.raise_status_ne e hok

theorem readbyte_examined_of_ok {a : Arg} (hx : exec (.readbyte a) s = .next t) (hok : t.rspStatus = 0) :
    s.examined (.readbyte a) = (8 * (s.bitpos.toNat / 8), 8) ∧ t.bitpos.toNat = s.bitpos.toNat + 8 := by
  rcases execReadbyte_cases s a with ⟨_, h⟩ | ⟨hbyte, h⟩
  · exact absurd h (not_raise_of_status_ok hx hok)
  · obtain rfl := next_inj (hx.symm.trans h)
    exact ⟨by rw [s.examined_readbyte, if_pos hbyte], s.advance_bitpos_toNat 8 _ (by omega)⟩

/-- The command examined the bits from BITPOS on, and the next state stands behind them. -/
def ExaminesAsItAdvances (s t : State) (i : Instr) : Prop :=
  (s.examined i).1 = s.bitpos.toNat ∧ t.bitpos.toNat = s.bitpos.toNat + (s.examined i).2

/-- An advance inside the buffer by the number of bits examined. -/
theorem examinesAsItAdvances_of_advance {n : Nat} {v : Value} (hx : exec i s = .next t)
    (h : exec i s = .next (s.advance (s.bitpos.toNat + n) v)) (hend : s.bitpos.toNat + n ≤ 8 * s.len.toNat)
    (he : s.examined i = (s.bitpos.toNat, n)) : ExaminesAsItAdvances s t i := by
  obtain rfl := next_inj (hx.symm.trans h)
  rw [ExaminesAsItAdvances, he]
  exact ⟨rfl, s.advance_bitpos_toNat n v (by omega)⟩

theorem readbits_examinesAsItAdvances {n : Arg} (hx : exec (.readbits n) s = .next t) (hok : t.rspStatus = 0) :
    ExaminesAsItAdvances s t (.readbits n) := by
  rcases execReadbits_cases s n with ⟨_, h⟩ | ⟨_, _, _, h⟩ | ⟨h1, h32, hend, h⟩
  · exact absurd h (not_raise_of_status_ok hx hok)
  · exact absurd h (not_raise_of_status_ok hx hok)
  · exact examinesAsItAdvances_of_advance hx h hend (by rw [s.examined_readbits, if_pos ⟨h1, h32, hend⟩])

/-- READFLAGS succeeds at a byte boundary only, so the byte's first bit is at BITPOS. -/
theorem readflags_examinesAsItAdvances {n : Arg} (hx : exec (.readflags n) s = .next t) (hok : t.rspStatus = 0) :
    ExaminesAsItAdvances s t (.readflags n) := by
  rcases execReadflags_cases s n with ⟨_, h⟩ | ⟨_, _, _, h⟩ | ⟨_, _, _, _, h⟩ | ⟨h1, h8, haligned, hbyte, h⟩
  · exact absurd h (not_raise_of_status_ok hx hok)
  · exact absurd h (not_raise_of_status_ok hx hok)
  · exact absurd h (not_raise_of_status_ok hx hok)
  · have hstart : 8 * (s.bitpos.toNat / 8) = s.bitpos.toNat := by omega
    exact examinesAsItAdvances_of_advance hx h (by omega)
      (by rw [s.examined_readflags, if_pos ⟨h1, h8, haligned, hbyte⟩, hstart])

theorem skiplz_examinesAsItAdvances {a : Arg} (hx : exec (.skiplz a) s = .next t) (hok : t.rspStatus = 0) :
    ExaminesAsItAdvances s t (.skiplz a) := by
  rcases execSkiplz_cases s a with ⟨_, h⟩ | ⟨z, hz, h⟩
  · exact absurd h (not_raise_of_status_ok hx hok)
  · exact examinesAsItAdvances_of_advance (n := z + 1) hx h hz.1 (s.examined_skiplz_of_firstOne a z hz)

/-- The three decoding commands examine what CodeNum examines. -/
theorem code_examinesAsItAdvances {val : Nat → Value}
    (hi : (∃ a, (i = .readcodenum a ∨ i = .readue a) ∧ val = zext64) ∨
      (∃ a, i = .readse a ∧ val = fun c => twos64 (signedOfCodeNum c)))
    (hx : exec i s = .next t) (hok : t.rspStatus = 0) : ExaminesAsItAdvances s t i := by
  have hexamined : s.examined i = (s.bitpos.toNat, s.codeBits s.bitpos.toNat) := by
    rcases hi with ⟨a, rfl | rfl, _⟩ | ⟨a, rfl, _⟩ <;> rfl
  rcases execCode_cases s i val hi with ⟨_, h⟩ | ⟨_, _, _, h⟩ | ⟨_, _, _, _, _, h⟩ | ⟨k, hk, h32, hend, h⟩
  · exact absurd h (not_raise_of_status_ok hx hok)
  · exact absurd h (not_raise_of_status_ok hx hok)
  · exact absurd h (not_raise_of_status_ok hx hok)
  · exact examinesAsItAdvances_of_advance hx h hend (by rw [hexamined, State.codeBits_of_complete hk h32 hend])

/-- Settles O16: one lemma for each reading command; INIT and the skips examine nothing by definition. -/
theorem advanceIsTheBitsExamined : Obligations.AdvanceIsTheBitsExamined := by
  intro s t i hx hok
  refine ⟨?_, ?_, ?_⟩
  · rintro a rfl
    exact readbyte_examined_of_ok hx hok
  · rintro ⟨a, rfl | rfl | rfl | rfl | rfl | rfl⟩
    · exact readbits_examinesAsItAdvances hx hok
    · exact readflags_examinesAsItAdvances hx hok
    · exact skiplz_examinesAsItAdvances hx hok
    · exact code_examinesAsItAdvances (.inl ⟨a, .inl rfl, rfl⟩) hx hok
    · exact code_examinesAsItAdvances (.inl ⟨a, .inr rfl, rfl⟩) hx hok
    · exact code_examinesAsItAdvances (.inr ⟨a, rfl, rfl⟩) hx hok
  · rintro ⟨a, rfl | rfl | rfl⟩ <;> rfl

end Sys2Proof.Machine
end

section
/-! ### Frames of a command and of a step (R15, R31, R32, R55) -/

namespace Sys2Proof.Machine

variable {s t : State} {i : Instr}

/-- The memory, the platform and the inputs still to come of `t` are those of `s`. -/
structure SameSurroundings (s t : State) : Prop where
  mem : t.mem = s.mem
  platform : t.platform = s.platform
  inputs : t.inputs = s.inputs
  rest : t.rest = s.rest

/-- R32: a command changes registers of the unit only. -/
theorem exec_sameSurroundings (hx : exec i s = .next t) : SameSurroundings s t := by
  rcases exec_next_cases hx with ⟨l, _, rfl⟩ | ⟨e, rfl⟩ | ⟨n, v, rfl, _⟩ <;> exact ⟨rfl, rfl, rfl, rfl⟩

theorem exec_cmdLatch (hx : exec i s = .next t) : t.cmdLatch = s.cmdLatch := by
  rcases exec_next_cases hx with ⟨l, _, rfl⟩ | ⟨e, rfl⟩ | ⟨n, v, rfl, _⟩ <;> rfl

/-- A write to the buffer stays noted until INIT attaches a buffer anew. -/
theorem exec_bufChanged_of_not_init (hx : exec i s = .next t) (hi : ∀ l, i ≠ .init l) :
    t.bufChanged = s.bufChanged := by
  rcases exec_next_cases hx with ⟨l, rfl, _⟩ | ⟨e, rfl⟩ | ⟨n, v, rfl, _⟩
  · exact absurd rfl (hi l)
  · rfl
  · rfl

/-- Settles O40: each field by the lemma that says so. -/
theorem whatNoCommandChanges : Obligations.WhatNoCommandChanges := by
  intro i s t hx
  obtain ⟨hmem, hplatform, hinputs, hrest⟩ := exec_sameSurroundings hx
  exact ⟨fun x => by rw [hmem], hmem, hplatform, exec_cmdLatch hx, hinputs, hrest,
    fun hi => ⟨(exec_cursor_of_not_init hx hi).1, exec_bufChanged_of_not_init hx hi⟩⟩

/-- Whatever an edge does, it leaves the surroundings as the platform's writes left them. -/
theorem step_sameSurroundings (hstep : step s = .next t) : SameSurroundings s.atEdge t := by
  rcases step_next_cases hstep with ⟨_, rfl⟩ | ⟨i, _, _, _, hx⟩ | rfl | rfl | rfl | ⟨_, w, rfl⟩
  · exact ⟨rfl, rfl, rfl, rfl⟩
  · exact exec_sameSurroundings hx
  all_goals exact ⟨rfl, rfl, rfl, rfl⟩

theorem State.atEdge_mem (s : State) : s.atEdge.mem = s.edge.writes.foldl (fun m c => m.write c.1 c.2) s.mem :=
  s.popEdge.platformWrites_mem s.edge.writes

/-- Writes leave every address that none of them names. -/
theorem Memory.read_foldl_write_of_ne (cs : List Host.Cell) (x : Nat) (hx : ∀ c ∈ cs, c.1 ≠ x) (m : Memory)
    (hm : m.wf) : (cs.foldl (fun m c => m.write c.1 c.2) m).read x = m.read x := by
  induction cs generalizing m with
  | nil => rfl
  | cons c cs ih =>
    obtain ⟨hc, hcs⟩ := List.forall_mem_cons.1 hx
    rw [List.foldl_cons, ih hcs _ (m.wf_write c.1 c.2 hm), m.read_write c.1 c.2 x hm, if_neg hc]

/-- Settles O41: the memory after the step is the memory at the edge, and only the platform's writes made that. -/
theorem onlyThePlatformWritesMemory : Obligations.OnlyThePlatformWritesMemory := by
  intro s t hstep
  obtain ⟨hmem, hplatform, hinputs, hrest⟩ := step_sameSurroundings hstep
  rw [s.atEdge_mem] at hmem
  refine ⟨hmem, fun hwf x hx => ?_, hplatform.trans s.atEdge_platform, hinputs.trans s.atEdge_inputs,
    hrest.trans s.atEdge_rest⟩
  rw [hmem, Memory.read_foldl_write_of_ne s.edge.writes x hx s.mem hwf]

end Sys2Proof.Machine
end

section
/-! ### Waits without an end (R38, R92, R100) -/

namespace Sys2Proof.Machine

variable {s : State}

/-- A command whose read is not answered by an edge waits there. -/
theorem State.waits_of_unanswered {e : EdgeIn} (hreads : s.commandReads = true) (he : e.unanswered = true) :
    s.waits e = true := by
  simp [State.waits, hreads, he]

/-- A response that is not taken stays (R92). -/
theorem step_of_response_kept (hr : s.edge.rst = false) (hb : s.busy = false) (hv : s.rspValid = true)
    (hready : s.edge.rspReady = false) : step s = .next s.atEdge := by
  simp [step_eq, clockEdge, State.idleEdge, hr, hb, hv, hready]

/-- An idle unit without an offer stays idle (R91). -/
theorem step_of_no_offer (hr : s.edge.rst = false) (hb : s.busy = false) (hv : s.rspValid = false)
    (hoffer : s.edge.cmdValid = false) : step s = .next s.atEdge := by
  simp [step_eq, clockEdge, State.idleEdge, hr, hb, hv, hoffer]

/-- Settles O56: with no input listed and no write, the state at the edge is the state, so each wait is a fixed point
of the step. -/
theorem endlessWaits : Obligations.EndlessWaits := by
  intro s hin hrst hwrites
  have hedge : s.edge = { s.rest with stall := false } := s.edge_of_nil hin
  have hat : s.atEdge = s := s.atEdge_of_rest hin hwrites
  have hr : s.edge.rst = false := by rw [hedge]; exact hrst
  have forever : step s = .next s.atEdge → ∀ k, Host.Core.run Sys2Proof.core k s = .next s := fun hstep =>
    run_of_fixed s (hstep.trans (by rw [hat]))
  refine ⟨fun hb hreads hun => ?_, fun hb hv hready => ?_, fun hb hv hoffer => ?_⟩
  · have hwaits : s.atEdge.waits s.edge = true := by
      rw [hat, hedge]
      exact State.waits_of_unanswered hreads hun
    exact forever (step_of_waits hr hb hwaits)
  · exact forever (step_of_response_kept hr hb hv (by rw [hedge]; exact hready))
  · exact forever (step_of_no_offer hr hb hv (by rw [hedge]; exact hoffer))

end Sys2Proof.Machine
end

section
/-! ### Writes to the attached buffer: the note, the refusal and the next INIT (R39, R43, R95) -/

namespace Sys2Proof.Machine

variable {s : State}

theorem State.exists_index_of_inBuffer {x : Nat} (h : s.inBuffer x = true) :
    ∃ a < s.len.toNat, x = bufAddr s.platform a := by
  obtain ⟨hx, hidx⟩ := (s.inBuffer_iff x).1 h
  exact ⟨bufIndex s.platform x, hidx, (bufAddr_bufIndex s.platform x hx).symm⟩

/-- LEN is below 2^24, so with ADDR_W at least 24 no two buffer indices share an address (R6, R39). -/
theorem State.inBuffer_iff_exists_index (hp : s.platform.wf) (x : Nat) :
    s.inBuffer x = true ↔ ∃ a < s.len.toNat, x = bufAddr s.platform a := by
  refine ⟨State.exists_index_of_inBuffer, ?_⟩
  rintro ⟨a, ha, rfl⟩
  have hwide : a < 2 ^ s.platform.addrW :=
    calc a < 2 ^ 24 := ha.trans s.len.isLt
      _ ≤ 2 ^ s.platform.addrW := Nat.pow_le_pow_right (by decide) hp
  rw [s.inBuffer_iff, bufIndex_bufAddr s.platform a hwide]
  exact ⟨Nat.mod_lt _ (Nat.two_pow_pos _), ha⟩

/-- The note at an edge: set before, or by a write made there. -/
theorem State.atEdge_bufChanged_iff (s : State) :
    s.atEdge.bufChanged = true ↔ s.bufChanged = true ∨ ∃ c ∈ s.edge.writes, s.inBuffer c.1 = true := by
  have hnote : s.atEdge.bufChanged = (s.bufChanged || s.edge.writes.any fun c => s.inBuffer c.1) :=
    s.popEdge.platformWrites_bufChanged s.edge.writes
  rw [hnote, Bool.or_eq_true, List.any_eq_true]

theorem State.readsChangedBuffer_iff (s : State) (i : Instr) :
    s.readsChangedBuffer i = true ↔ s.bufChanged = true ∧ (s.examined i).2 ≠ 0 := by
  simp [State.readsChangedBuffer, State.readsBuffer]

/-- No command's meaning is a refusal. -/
theorem exec_ne_refused (i : Instr) (s : State) (r : Refusal) : exec i s ≠ .refused r := by
  rcases exec_cases s i with ⟨_, _, h⟩ | ⟨_, _, h⟩ | ⟨_, _, _, h, _⟩ <;> simp [h]

/-- A step is refused at the completion edge of a command that reads a changed buffer, and nowhere else. -/
theorem step_eq_refused_iff (s : State) (r : Refusal) :
    step s = .refused r ↔ r = .bufferChanged ∧ s.edge.rst = false ∧ s.busy = true ∧
      s.atEdge.waits s.edge = false ∧ ∃ i, decode s.cmdLatch = .ok i ∧ s.atEdge.readsChangedBuffer i = true := by
  constructor
  · intro h
    rcases step_cases s with ⟨_, hs⟩ | ⟨_, _, _, hs⟩ | ⟨_, _, _, _, hs⟩ | ⟨i, hr, hb, hw, hd, hc, hs⟩ |
      ⟨i, _, _, _, _, _, hs⟩ | ⟨_, _, _, _, hs⟩ | ⟨_, _, _, _, hs⟩ | ⟨_, _, _, _, hs⟩ | ⟨_, _, _, _, hs⟩ <;>
      rw [hs] at h
    case inr.inr.inr.inl =>
      cases h
      exact ⟨rfl, hr, hb, hw, i, hd, hc⟩
    case inr.inr.inr.inr.inl => exact absurd h (exec_ne_refused i s.atEdge r)
    all_goals cases h
  · rintro ⟨rfl, hr, hb, hw, i, hd, hc⟩
    simp [step_eq, clockEdge, completeCommand, hr, hb, hw, hd, hc]

/-- Settles O57: a refusal is a read of a changed buffer, and the note at the edge is the earlier note or a write. -/
theorem onlyAChangedBufferIsRefused : Obligations.OnlyAChangedBufferIsRefused := by
  refine ⟨fun s => ⟨nofun, fun r hstep => ?_⟩, fun s i hr hb hw hd hex hchanged => ?_⟩
  · obtain ⟨hbc, hr, hb, hw, i, hd, hc⟩ := (step_eq_refused_iff s r).1 hstep
    obtain ⟨hnote, hex⟩ := (s.atEdge.readsChangedBuffer_iff i).1 hc
    refine ⟨hbc, hb, hr, hw, ⟨i, hd, hex⟩, ?_⟩
    exact (s.atEdge_bufChanged_iff.1 hnote).imp_right
      fun ⟨c, hcs, hbuf⟩ => ⟨c, hcs, State.exists_index_of_inBuffer hbuf⟩
  · have hnote : s.atEdge.bufChanged = true := s.atEdge_bufChanged_iff.2 <|
      hchanged.imp_right fun ⟨hp, c, hcs, hidx⟩ => ⟨c, hcs, (State.inBuffer_iff_exists_index hp c.1).2 hidx⟩
    exact (step_eq_refused_iff s .bufferChanged).2
      ⟨rfl, hr, hb, hw, i, hd, (s.atEdge.readsChangedBuffer_iff i).2 ⟨hnote, hex⟩⟩

/-- The buffer byte at the address just written is the written one. -/
theorem State.platformWrite_buf_same (h : s.mem.wf) (a : Nat) (v : Byte) :
    (s.platformWrite (bufAddr s.platform a, v)).buf a = v := by
  simp [State.buf, Memory.read_write _ _ _ _ h]

/-- Settles O58: INIT keeps the memory, so the cursor it begins sees what was written last. -/
theorem initSeesTheNewContents : Obligations.InitSeesTheNewContents := by
  refine ⟨fun s x v hp _ => ?_, fun s t l a v hwf hx => ?_⟩
  · rw [State.platformWrite_bufChanged, Bool.or_eq_true, State.inBuffer_iff_exists_index hp]
  · obtain rfl := next_inj ((exec_init_eq l _).symm.trans hx)
    exact ⟨rfl, State.platformWrite_buf_same hwf a v⟩

end Sys2Proof.Machine
end

section
/-! ### Decoding and encoding: the two fields of a word, and the command they name (R45, R48, R51) -/

namespace Sys2Proof

theorem opField_toNat (w : Word) : (opField w).toNat = w.toNat % 256 := by
  simp [opField]

theorem argField_toNat (w : Word) : (argField w).toNat = w.toNat / 256 := by
  have hw : w.toNat < 2 ^ 32 := w.isLt
  simp only [argField, BitVec.extractLsb'_toNat, Nat.shiftRight_eq_div_pow]
  omega

/-- The two fields are the whole word. -/
theorem argField_append_opField (w : Word) : (argField w ++ opField w : BitVec (24 + 8)) = w :=
  BitVec.extractLsb'_append_extractLsb'_eq_extractLsb' (w := 32) rfl |>.trans BitVec.extractLsb'_eq_self

/-- A word with the fields of a command is a word of that command. -/
theorem decode_of_fields {w : Word} {i : Instr} (hop : opField w = i.opcode) (harg : argField w = i.arg) :
    decode w = .ok i := by
  cases i <;> simp [decode, hop, harg, Instr.opcode, Instr.arg]

/-- All that decoding answers: the command whose fields the word has, or IllegalCommand for the other values of OP. -/
theorem decode_cases (w : Word) :
    (∃ i, decode w = .ok i ∧ opField w = i.opcode ∧ argField w = i.arg) ∨
    (decode w = .error .illegalCommand ∧ ((opField w).toNat = 0 ∨ 14 ≤ (opField w).toNat)) := by
  unfold decode
  split
  case h_14 =>
    have hillegal : (opField w).toNat = 0 ∨ 14 ≤ (opField w).toNat := by
      simp only [imp_false] at *
      omega
    exact .inr ⟨rfl, hillegal⟩
  all_goals exact .inl ⟨_, rfl, BitVec.eq_of_toNat_eq ‹_›, rfl⟩

theorem fields_of_decode {w : Word} {i : Instr} (h : decode w = .ok i) : opField w = i.opcode ∧ argField w = i.arg := by
  rcases decode_cases w with ⟨j, hj, hfields⟩ | ⟨herr, _⟩
  · obtain rfl : j = i := Except.ok.inj (hj.symm.trans h)
    exact hfields
  · simp [herr] at h

/-- The OP column of R48 is 0x01 to 0x0D. -/
theorem Instr.opcode_range (i : Instr) : 1 ≤ i.opcode.toNat ∧ i.opcode.toNat ≤ 13 := by
  cases i <;> simp [Instr.opcode]

/-- R50: the other values of OP are no command. -/
theorem decode_of_illegal_op {w : Word} (h : w.toNat % 256 = 0 ∨ 14 ≤ w.toNat % 256) :
    decode w = .error .illegalCommand := by
  rcases decode_cases w with ⟨i, _, hop, _⟩ | ⟨herr, _⟩
  · have hrange := i.opcode_range
    rw [← hop, opField_toNat] at hrange
    omega
  · exact herr

/-- Settles O1: the encoder puts the command's fields where the decoder reads them. -/
theorem decodeOfEncodeIsTheCommand : Obligations.DecodeOfEncodeIsTheCommand := fun i =>
  have hfields := Laws.WordFields.fields i.arg i.opcode
  decode_of_fields hfields.1 hfields.2

theorem encode_of_decode {w : Word} {i : Instr} (h : decode w = .ok i) : encode i = w := by
  obtain ⟨hop, harg⟩ := fields_of_decode h
  rw [encode, ← hop, ← harg]
  exact argField_append_opField w

/-- Settles O2: the decoded command has the two fields of the word, and they are the whole word. -/
theorem encodeOfDecodeIsTheWord : Obligations.EncodeOfDecodeIsTheWord := fun _ _ => encode_of_decode

/-- Settles O3: the cases of decoding, with the two fields as numbers. -/
theorem decodingIsTotal : Obligations.DecodingIsTotal := by
  refine fun w => ⟨fun hlegal => ?_, decode_of_illegal_op⟩
  rcases decode_cases w with ⟨i, hi, hop, harg⟩ | ⟨_, hillegal⟩
  · exact ⟨i, hi, by rw [← hop, opField_toNat], by rw [← harg, argField_toNat]⟩
  · rw [opField_toNat] at hillegal
    omega

/-- Settles O4: sixteen closed words, each decoded by evaluation. -/
theorem specWordsDecode : Obligations.SpecWordsDecode := by
  unfold Obligations.SpecWordsDecode
  decide

end Sys2Proof
end

section
/-! ### Words on the command port: an ignored ARG (R49) and an illegal OP (R50) -/

namespace Sys2Proof.Machine

variable {s : State}

/-- Settles O5: the meaning of each of the six commands does not mention its ARG. -/
theorem ignoredArgChangesNothing : Obligations.IgnoredArgChangesNothing :=
  fun _ _ => ⟨rfl, rfl, rfl, rfl, rfl, rfl⟩

/-- A ready unit accepts an offered word, whatever it is (R91). -/
theorem step_of_offer (hr : s.edge.rst = false) (hb : s.busy = false) (hv : s.rspValid = false)
    (hoffer : s.edge.cmdValid = true) : step s = .next (s.atEdge.accept s.edge.cmdWord) := by
  simp [step_eq, clockEdge, State.idleEdge, hr, hb, hv, hoffer]

/-- A word in flight that is no command fails as soon as LAT has passed: it waits for no buffer read. -/
theorem step_of_illegal {d : DecodeError} (hr : s.edge.rst = false) (hb : s.busy = true)
    (hstall : s.edge.stall = false) (hd : decode s.cmdLatch = .error d) :
    step s = .next (s.atEdge.raise .illegalCommand) := by
  have hd' : decode s.atEdge.cmdLatch = .error d := by rw [State.atEdge_cmdLatch, hd]
  have hw : s.atEdge.waits s.edge = false := by rw [State.waits_of_illegal _ _ hd', hstall]
  simp [step_eq, clockEdge, completeCommand, hr, hb, hw, hd]

/-- Settles O37: any offered word is accepted, and one with an illegal OP decodes to no command. -/
theorem illegalWordFails : Obligations.IllegalWordFails :=
  fun _ => ⟨step_of_offer, fun hr hb hstall hop => step_of_illegal hr hb hstall (decode_of_illegal_op hop)⟩

end Sys2Proof.Machine
end

section
/-! ### The assembly language (R52): what the assembler makes of each line the disassembler prints -/

namespace Sys2Proof

/-- The row of R48 a command stands in, as the command of its ARG. -/
def Instr.row : Instr → Arg → Instr
  | .init _ => .init
  | .readbyte _ => .readbyte
  | .readbits _ => .readbits
  | .readflags _ => .readflags
  | .skipbyte _ => .skipbyte
  | .skipbits _ => .skipbits
  | .skiplz _ => .skiplz
  | .readcodenum _ => .readcodenum
  | .readue _ => .readue
  | .readse _ => .readse
  | .readtcodenum _ => .readtcodenum
  | .readme _ => .readme
  | .readte _ => .readte

@[simp] theorem Instr.row_arg (i : Instr) : i.row i.arg = i := by cases i <;> rfl

@[simp] theorem Instr.row_form (i : Instr) (a : Arg) : (i.row a).form = i.form := by cases i <;> rfl

/-- A form-"none" command that has a line of assembly has ARG 0. -/
theorem Instr.arg_of_wellFormed {i : Instr} (hwf : i.wellFormed = true) (hbare : i.form = .bare) : i.arg = 0 := by
  simpa [Instr.wellFormed, hbare] using hwf

end Sys2Proof

namespace Sys2Proof.Machine

/-! #### The parts of a line -/

/-- A part of a line: not empty, with no blank in it and no start of a comment. -/
def IsPart (x : List Char) : Prop := x ≠ [] ∧ ∀ c ∈ x, isBlank c = false ∧ c ≠ ';'

theorem IsPart.notBlank {x : List Char} (hx : IsPart x) : ∀ c ∈ x, isBlank c = false := fun c hc => (hx.2 c hc).1

/-- What the assembler reads of a line of one part. -/
theorem lineParts_of_part {m : List Char} (hm : IsPart m) : lineParts [] (m.takeWhile (· != ';')) = [m] := by
  rw [List.takeWhile_eq_self_iff.2 fun c hc => by simpa using (hm.2 c hc).2]
  exact lineParts_of_plain [] m hm.notBlank hm.1

/-- What the assembler reads of a line of two parts. -/
theorem lineParts_of_parts {m x : List Char} (hm : IsPart m) (hx : IsPart x) :
    lineParts [] ((m ++ ' ' :: x).takeWhile (· != ';')) = [m, x] := by
  have hcode : ∀ c ∈ m ++ ' ' :: x, (c != ';') = true := by
    intro c hc
    simp only [List.mem_append, List.mem_cons] at hc
    rcases hc with hc | rfl | hc
    · simpa using (hm.2 c hc).2
    · decide
    · simpa using (hx.2 c hc).2
  rw [List.takeWhile_eq_self_iff.2 hcode]
  exact lineParts_of_two [] m x hm.notBlank hx.notBlank hm.1 hx.1

theorem mnemonic_isPart (i : Instr) : IsPart (mnemonic i) := by
  cases i <;> simp [IsPart, mnemonic, isBlank]

theorem wordDirective_isPart : IsPart wordDirective := by
  simp [IsPart, wordDirective, isBlank]

theorem decimal_ne_nil {places : Nat} (hp : 0 < places) (n : Nat) : decimal places n ≠ [] := by
  obtain ⟨k, rfl⟩ := Nat.exists_eq_add_of_lt hp
  rw [decimal]
  split <;> simp

theorem decimal_isPart {places : Nat} (hp : 0 < places) (n : Nat) : IsPart (decimal places n) := by
  refine ⟨decimal_ne_nil hp n, fun c hc => ?_⟩
  obtain ⟨d, hd, rfl⟩ := decimal_digits places n c hc
  exact digitChar_plain (by omega)

theorem hexLiteral_isPart (places n : Nat) : IsPart ('0' :: 'x' :: hexadecimal places n) := by
  refine ⟨by simp, fun c hc => ?_⟩
  simp only [List.mem_cons] at hc
  rcases hc with rfl | rfl | hc
  · decide
  · decide
  · obtain ⟨d, hd, rfl⟩ := hexadecimal_digits places n c hc
    exact digitChar_plain hd

/-! #### Literals -/

theorem literalValue_decimal {places n : Nat} (hp : 0 < places) (hn : n < 10 ^ places) :
    literalValue (decimal places n) = some n := by
  have hx : 'x' ∉ decimal places n := by
    intro hx
    obtain ⟨d, hd, hdx⟩ := decimal_digits places n 'x' hx
    interval_cases d <;> simp [digitChar, hexDigits] at hdx
  rw [← digitsValue_decimal places n hn hp]
  unfold literalValue
  split
  case h_1 hnil => exact absurd hnil (decimal_ne_nil hp n)
  case h_2 hhex => simp [hhex] at hx
  case h_3 _ _ _ hcons => rw [hcons]

theorem literalValue_hexadecimal (k n : Nat) :
    literalValue ('0' :: 'x' :: hexadecimal (k + 1) n) = some (n % 16 ^ (k + 1)) := by
  rw [← digitsValue_hexadecimal]
  cases h : hexadecimal (k + 1) n with
  | nil => simp [hexadecimal] at h
  | cons c cs => rfl

theorem literalBelow_of_lt {limit v : Nat} {x : List Char} (hx : literalValue x = some v) (hv : v < limit) :
    literalBelow limit x = .ok v := by
  simp [literalBelow, hx, hv]

theorem literalBelow_of_le {limit v : Nat} {x : List Char} (hx : literalValue x = some v) (hv : limit ≤ v) :
    literalBelow limit x = .error .operandRange := by
  simp [literalBelow, hx, Nat.not_lt.2 hv]

/-! #### Lines -/

/-- The mnemonics of R48 are thirteen different ones. -/
theorem findCommand_mnemonic (i : Instr) : findCommand (mnemonic i) = some i.row := by
  cases i <;> rfl

theorem mnemonic_ne_wordDirective (i : Instr) : mnemonic i ≠ wordDirective := by
  cases i <;> simp [mnemonic, wordDirective]

/-- A mnemonic alone is a line of a form-"none" command, with ARG 0, and of no other. -/
theorem assembleLine_mnemonic (i : Instr) : assembleLine (mnemonic i) =
    if i.form = .bare then .ok (encode (i.row 0)) else .error .missingOperand := by
  simp [assembleLine, lineParts_of_part (mnemonic_isPart i), mnemonic_ne_wordDirective, findCommand_mnemonic]

/-- A mnemonic and an operand are a line of a command with an operand form, and of no other. -/
theorem assembleLine_mnemonic_operand (i : Instr) {x : List Char} (hx : IsPart x) :
    assembleLine (mnemonic i ++ ' ' :: x) =
      if i.form = .bare then .error .unexpectedOperand
      else (literalBelow (2 ^ 24) x).map fun v => encode (i.row (BitVec.ofNat 24 v)) := by
  simp [assembleLine, lineParts_of_parts (mnemonic_isPart i) hx, mnemonic_ne_wordDirective, findCommand_mnemonic]

theorem assembleLine_word {x : List Char} (hx : IsPart x) :
    assembleLine (wordDirective ++ ' ' :: x) = (literalBelow (2 ^ 32) x).map (BitVec.ofNat 32) := by
  simp [assembleLine, lineParts_of_parts wordDirective_isPart hx]

/-- The eight digits of a `.word` line hold the whole word. -/
theorem assembleLine_wordLine (w : Word) : assembleLine (wordLine w) = .ok w := by
  have hw : w.toNat < 2 ^ 32 := w.isLt
  have hval : literalValue ('0' :: 'x' :: hexadecimal 8 w.toNat) = some w.toNat := by
    rw [literalValue_hexadecimal, Nat.mod_eq_of_lt (by omega)]
  rw [wordLine, assembleLine_word (hexLiteral_isPart 8 _), literalBelow_of_lt hval hw]
  simp [Except.map]

theorem assembleLine_commandLine {i : Instr} (hwf : i.wellFormed = true) :
    assembleLine (commandLine i) = .ok (encode i) := by
  by_cases hbare : i.form = .bare
  · have hrow : i.row 0 = i := by rw [← Instr.arg_of_wellFormed hwf hbare, Instr.row_arg]
    rw [commandLine, if_pos hbare, assembleLine_mnemonic, if_pos hbare, hrow]
  · have harg : i.arg.toNat < 2 ^ 24 := i.arg.isLt
    have hval := literalValue_decimal (places := 8) (by omega) (show i.arg.toNat < 10 ^ 8 by omega)
    rw [commandLine, if_neg hbare, assembleLine_mnemonic_operand i (decimal_isPart (by omega) _), if_neg hbare,
      literalBelow_of_lt hval harg]
    simp [Except.map]

/-- Settles O6: a word is printed as a `.word` line or as the line of the command it decodes to, and no bit of a legal
word is lost in decoding. -/
theorem assembleOfDisassembleIsTheWord : Obligations.AssembleOfDisassembleIsTheWord := by
  intro w
  cases hd : decode w with
  | error e => simp only [disassemble, hd, assembleLine_wordLine]
  | ok i =>
    cases hwf : i.wellFormed with
    | false => simp [disassemble, hd, hwf, assembleLine_wordLine]
    | true => simp [disassemble, hd, hwf, assembleLine_commandLine, encode_of_decode hd]

/-- Settles O7: a command's line assembles to its word, and each listed error is a branch of a line of one or two
parts. -/
theorem assemblerEmitsTheEncoding : Obligations.AssemblerEmitsTheEncoding := by
  refine ⟨fun i => assembleLine_commandLine, fun i hform => ?_, fun i n _ hbare => ?_, fun i n hlow hhigh hform => ?_⟩
  · rw [assembleLine_mnemonic, if_neg hform]
  · rw [assembleLine_mnemonic_operand i (decimal_isPart (by omega) n), if_pos hbare]
  · have hval := literalValue_decimal (by omega) hhigh
    rw [assembleLine_mnemonic_operand i (decimal_isPart (by omega) n), if_neg hform, literalBelow_of_le hval hlow]
    rfl

end Sys2Proof.Machine
end

section
/-! ### What the Bit Cursor commands answer, check by check (40_bit_cursor.md R56 to R65) -/

namespace Sys2Proof.Machine

variable (s : State)

theorem exec_readbyte_eq (a : Arg) : exec (.readbyte a) s =
    if s.len.toNat ≤ s.bitpos.toNat / 8 then .next (s.raise .endOfStream)
    else .next (s.advance (s.bitpos.toNat + 8) (zext64 (s.buf (s.bitpos.toNat / 8)).toNat)) := by
  rcases execReadbyte_cases s a with ⟨hend, h⟩ | ⟨hbyte, h⟩
  · rw [if_pos hend]; exact h
  · rw [if_neg (by omega)]; exact h

theorem exec_readbits_eq (n : Arg) : exec (.readbits n) s =
    if n.toNat = 0 ∨ 32 < n.toNat then .next (s.raise .invalidArgument)
    else if 8 * s.len.toNat < s.bitpos.toNat + n.toNat then .next (s.raise .endOfStream)
    else .next (s.advance (s.bitpos.toNat + n.toNat) (zext64 (s.bits s.bitpos.toNat n.toNat))) := by
  rcases execReadbits_cases s n with ⟨hw, h⟩ | ⟨h1, h32, hend, h⟩ | ⟨h1, h32, hfit, h⟩
  · rw [if_pos hw]; exact h
  · rw [if_neg (by omega), if_pos hend]; exact h
  · rw [if_neg (by omega), if_neg (by omega)]; exact h

theorem exec_skipbyte_eq (a : Arg) : exec (.skipbyte a) s =
    if 8 * s.len.toNat < s.bitpos.toNat + 8 then .next (s.raise .endOfStream)
    else .next (s.advance (s.bitpos.toNat + 8) 0) := by
  rcases execSkipbyte_cases s a with ⟨hend, h⟩ | ⟨hfit, h⟩
  · rw [if_pos hend]; exact h
  · rw [if_neg (by omega)]; exact h

theorem exec_skipbits_eq (n : Arg) : exec (.skipbits n) s =
    if n.toNat = 0 ∨ 32 < n.toNat then .next (s.raise .invalidArgument)
    else if 8 * s.len.toNat < s.bitpos.toNat + n.toNat then .next (s.raise .endOfStream)
    else .next (s.advance (s.bitpos.toNat + n.toNat) 0) := by
  rcases execSkipbits_cases s n with ⟨hw, h⟩ | ⟨h1, h32, hend, h⟩ | ⟨h1, h32, hfit, h⟩
  · rw [if_pos hw]; exact h
  · rw [if_neg (by omega), if_pos hend]; exact h
  · rw [if_neg (by omega), if_neg (by omega)]; exact h

theorem exec_skiplz_of_firstOneAfter (a : Arg) {z : Nat} (hz : s.firstOneAfter s.bitpos.toNat z) :
    exec (.skiplz a) s = .next (s.advance (s.bitpos.toNat + z + 1) (zext64 z)) := by
  rw [exec, execSkiplz, (s.lz_eq_some _ z).2 hz]

theorem exec_skiplz_of_noOneFrom (a : Arg) (hno : s.noOneFrom s.bitpos.toNat) :
    exec (.skiplz a) s = .next (s.raise .endOfStream) := by
  rw [exec, execSkiplz, (s.lz_eq_none _).2 hno]

/-- The width check passes and the bits are left: READBITS succeeds. -/
theorem exec_readbits_of_fits {n : Arg} (h1 : 1 ≤ n.toNat) (h32 : n.toNat ≤ 32)
    (hfit : s.bitpos.toNat + n.toNat ≤ 8 * s.len.toNat) : exec (.readbits n) s =
      .next (s.advance (s.bitpos.toNat + n.toNat) (zext64 (s.bits s.bitpos.toNat n.toNat))) := by
  rw [exec_readbits_eq, if_neg (by omega), if_neg (by omega)]

/-- Past its checks READFLAGS does what READBITS does: the byte's first bit is the bit at BITPOS (R61). -/
theorem exec_readflags_eq (n : Arg) : exec (.readflags n) s =
    if n.toNat = 0 ∨ 8 < n.toNat then .next (s.raise .invalidArgument)
    else if s.bitpos.toNat % 8 ≠ 0 then .next (s.raise .invalidState)
    else if s.len.toNat ≤ s.bitpos.toNat / 8 then .next (s.raise .endOfStream)
    else exec (.readbits n) s := by
  rcases execReadflags_cases s n with ⟨hw, h⟩ | ⟨h1, h8, hmis, h⟩ | ⟨h1, h8, hal, hend, h⟩ | ⟨h1, h8, hal, hbyte, h⟩
  · rw [if_pos hw]; exact h
  · rw [if_neg (by omega), if_pos hmis]; exact h
  · rw [if_neg (by omega), if_neg (not_not.2 hal), if_pos hend]; exact h
  · have hstart : 8 * (s.bitpos.toNat / 8) = s.bitpos.toNat := by omega
    rw [if_neg (by omega), if_neg (not_not.2 hal), if_neg (by omega),
      exec_readbits_of_fits s h1 (by omega) (by omega)]
    rw [← s.bits_of_byte _ _ h8, hstart] at h
    exact h

end Sys2Proof.Machine
end

section
/-! ### INIT, READBYTE and the skips (R58, R59, R62, R63, R65) -/

namespace Sys2Proof.Machine

/-- Settles O18: the new buffer of INIT 0 is empty, so its position 0 is already the end. -/
theorem initAttachesTheBuffer : Obligations.InitAttachesTheBuffer := by
  refine fun l s => ⟨decodeOfEncodeIsTheCommand (.init l), exec_init_eq l s, rfl, fun i t hx hi => ?_⟩
  obtain rfl := next_inj ((exec_init_eq 0 s).symm.trans hx)
  exact exec_endOfStream_of_end (Nat.le_refl 0) hi fun _ _ => rfl

/-- Settles O19: the one check of READBYTE, and the byte's zero-extension. -/
theorem readbyteReadsTheCurrentByte : Obligations.ReadbyteReadsTheCurrentByte := by
  refine fun a s => ⟨decodeOfEncodeIsTheCommand (.readbyte a), fun hbyte => ?_, fun hend => ?_⟩
  · rw [exec_readbyte_eq, if_neg (Nat.not_le.2 hbyte), zext64, BitVec.ofNat_toNat]
    rfl
  · rw [exec_readbyte_eq, if_pos hend]
    rfl

/-- Settles O20: at a byte boundary 8 bits are left exactly when the byte is in the buffer, and they are that byte. -/
theorem alignedReadbyteIsReadbitsEight : Obligations.AlignedReadbyteIsReadbitsEight := by
  intro a s haligned
  have h8 : (8 : Arg).toNat = 8 := rfl
  have hstart : s.bitpos.toNat = 8 * (s.bitpos.toNat / 8) := by omega
  have hvalue : s.bits s.bitpos.toNat 8 = (s.buf (s.bitpos.toNat / 8)).toNat := by
    rw [hstart, s.bits_whole_byte, ← hstart]
  rw [exec_readbyte_eq, exec_readbits_eq, h8, hvalue]
  by_cases hend : s.len.toNat ≤ s.bitpos.toNat / 8
  · rw [if_pos hend, if_neg (by omega), if_pos (by omega)]
  · rw [if_neg hend, if_neg (by omega), if_neg (by omega)]

/-- Settles O24: SKIPBYTE has one check. -/
theorem skipbyteAdvancesEight : Obligations.SkipbyteAdvancesEight := by
  refine fun a s => ⟨decodeOfEncodeIsTheCommand (.skipbyte a), rfl, fun hfit => ?_, fun hend => ?_⟩
  · rw [exec_skipbyte_eq, if_neg (Nat.not_lt.2 hfit)]
    rfl
  · rw [exec_skipbyte_eq, if_pos hend]
    rfl

/-- Settles O25: the width check stands before the bound check. -/
theorem skipbitsAdvances : Obligations.SkipbitsAdvances := by
  refine fun n s => ⟨decodeOfEncodeIsTheCommand (.skipbits n), rfl, fun ⟨h1, h32, hfit⟩ => ?_, fun hw => ?_,
    fun ⟨h1, h32, hend⟩ => ?_⟩
  · rw [exec_skipbits_eq, if_neg (by omega), if_neg (Nat.not_lt.2 hfit)]
    rfl
  · rw [exec_skipbits_eq, if_pos hw]
    rfl
  · rw [exec_skipbits_eq, if_neg (by omega), if_pos hend]
    rfl

/-- Settles O26: the scan finds the first 1 bit, wherever it stands; it lies inside a buffer of fewer than 2^27 bits. -/
theorem skiplzCountsTheZeros : Obligations.SkiplzCountsTheZeros := by
  refine fun a s => ⟨decodeOfEncodeIsTheCommand (.skiplz a), fun z hz => ⟨exec_skiplz_of_firstOneAfter s a hz, ?_⟩,
    exec_skiplz_of_noOneFrom s a⟩
  have hlen := s.bitLen_bound
  have hend := hz.1
  omega

end Sys2Proof.Machine
end

section
/-! ### READBITS and READFLAGS: how the stream bits are packed (R60, R61) -/

namespace Sys2Proof.Machine

variable {s t : State} {n : Arg}

/-- The bits from `p` on, as a response value: the first of them is bit `n - 1`, and above them are zeros. -/
theorem State.zext64_bits_packs (s : State) (p : Nat) {n : Nat} (hn : n ≤ 64) :
    (∀ i < n, (zext64 (s.bits p n)).getLsbD (n - 1 - i) = s.bitAt (p + i)) ∧
      ∀ j, n ≤ j → (zext64 (s.bits p n)).getLsbD j = false := by
  simp only [zext64, BitVec.getLsbD_ofNat]
  refine ⟨fun i hi => ?_, fun j hj => ?_⟩
  · rw [s.bits_testBit p n i hi, decide_eq_true (by omega), Bool.true_and]
  · rw [Nat.testBit_lt_two_pow ((s.bits_lt p n).trans_le (Nat.pow_le_pow_right (by decide) hj)), Bool.and_false]

theorem State.zext64_bits_toNat (s : State) (p : Nat) {n : Nat} (hn : n ≤ 64) :
    (zext64 (s.bits p n)).toNat = s.bits p n :=
  zext64_toNat _ ((s.bits_lt p n).trans_le (Nat.pow_le_pow_right (by decide) hn))

/-- Moving the cursor leaves the buffer's bits. -/
theorem State.advance_bits (s : State) (p : Nat) (v : Value) (q n : Nat) :
    (s.advance p v).bits q n = s.bits q n :=
  State.bits_congr _ _ _ _ fun _ _ => rfl

/-- Settles O21: the two checks of READBITS, and the packing of the bits it reads. -/
theorem readbitsPacksTheStreamBits : Obligations.ReadbitsPacksTheStreamBits := by
  refine fun n s => ⟨decodeOfEncodeIsTheCommand (.readbits n), fun ⟨h1, h32, hfit⟩ => ?_, fun hw => ?_,
    fun ⟨h1, h32, hend⟩ => ?_⟩
  · exact ⟨_, exec_readbits_of_fits s h1 h32 hfit, s.zext64_bits_packs _ (by omega)⟩
  · rw [exec_readbits_eq, if_pos hw]
    rfl
  · rw [exec_readbits_eq, if_neg (by omega), if_pos hend]
    rfl

/-- The next state of a READBITS that succeeds. -/
theorem readbits_next_of_ok (hx : exec (.readbits n) s = .next t) (hok : t.rspStatus = 0) :
    s.bitpos.toNat + n.toNat ≤ 8 * s.len.toNat ∧
      t = s.advance (s.bitpos.toNat + n.toNat) (zext64 (s.bits s.bitpos.toNat n.toNat)) := by
  rcases execReadbits_cases s n with ⟨_, h⟩ | ⟨_, _, _, h⟩ | ⟨_, _, hfit, h⟩
  · exact absurd h (not_raise_of_status_ok hx hok)
  · exact absurd h (not_raise_of_status_ok hx hok)
  · exact ⟨hfit, next_inj (hx.symm.trans h)⟩

/-- Settles O22: the second read begins where the first ended, and the buffer is the same. -/
theorem readbitsInTwoParts : Obligations.ReadbitsInTwoParts := by
  intro m n s t u hm hn hmn hxt hokt hxu hoku
  have hsum : (m + n).toNat = m.toNat + n.toNat := by
    rw [BitVec.toNat_add, Nat.mod_eq_of_lt (by omega)]
  obtain ⟨hfitm, rfl⟩ := readbits_next_of_ok hxt hokt
  have hpos := s.advance_bitpos_toNat m.toNat (zext64 (s.bits s.bitpos.toNat m.toNat)) (by omega)
  obtain ⟨hfitn, rfl⟩ := readbits_next_of_ok hxu hoku
  rw [hpos, State.advance_len] at hfitn
  rw [exec_readbits_of_fits s (by omega) (by omega) (by omega), hsum, s.bits_add, hpos, s.advance_bits,
    State.advance_rspValue, State.advance_rspValue, s.zext64_bits_toNat _ (by omega),
    s.zext64_bits_toNat _ (by omega), ← Nat.add_assoc]
  rfl

theorem exec_readflags_of_fits (h1 : 1 ≤ n.toNat) (h8 : n.toNat ≤ 8) (haligned : s.bitpos.toNat % 8 = 0)
    (hbyte : s.bitpos.toNat / 8 < s.len.toNat) : exec (.readflags n) s = exec (.readbits n) s := by
  rw [exec_readflags_eq, if_neg (by omega), if_neg (not_not.2 haligned), if_neg (Nat.not_le.2 hbyte)]

theorem exec_readflags_of_misaligned (h1 : 1 ≤ n.toNat) (h8 : n.toNat ≤ 8) (hmis : s.bitpos.toNat % 8 ≠ 0) :
    exec (.readflags n) s = .next (s.raise .invalidState) := by
  rw [exec_readflags_eq, if_neg (by omega), if_pos hmis]

/-- READFLAGS succeeds at a byte boundary only, and as READBITS does. -/
theorem readflags_next_of_ok (hx : exec (.readflags n) s = .next t) (hok : t.rspStatus = 0) :
    1 ≤ n.toNat ∧ s.bitpos.toNat % 8 = 0 ∧ exec (.readbits n) s = .next t := by
  rcases execReadflags_cases s n with ⟨_, h⟩ | ⟨_, _, _, h⟩ | ⟨_, _, _, _, h⟩ | ⟨h1, h8, haligned, hbyte, _⟩
  · exact absurd h (not_raise_of_status_ok hx hok)
  · exact absurd h (not_raise_of_status_ok hx hok)
  · exact absurd h (not_raise_of_status_ok hx hok)
  · exact ⟨h1, haligned, (exec_readflags_of_fits h1 h8 haligned hbyte).symm.trans hx⟩

/-- Settles O23: READFLAGS is READBITS behind its own three checks, and after 1 to 7 flags the cursor is misaligned. -/
theorem readflagsPacksTheFirstFlags : Obligations.ReadflagsPacksTheFirstFlags := by
  refine fun n s => ⟨decodeOfEncodeIsTheCommand (.readflags n), fun ⟨h1, h8, haligned, hbyte⟩ => ?_, fun hw => ?_,
    fun ⟨h1, h8, hmis⟩ => exec_readflags_of_misaligned h1 h8 hmis, fun ⟨h1, h8, haligned, hend⟩ => ?_,
    fun t hx hok => ?_⟩
  · obtain ⟨hbits, hzeros⟩ := s.zext64_bits_packs s.bitpos.toNat (n := n.toNat) (by omega)
    refine ⟨zext64 (s.bits s.bitpos.toNat n.toNat), ?_, fun i hi => ?_, hzeros⟩
    · rw [exec_readflags_of_fits h1 h8 haligned hbyte, exec_readbits_of_fits s h1 (by omega) (by omega)]
      rfl
    · have hstart : 8 * (s.bitpos.toNat / 8) = s.bitpos.toNat := by omega
      rw [hbits i hi, ← s.bitAt_eight_mul_add _ (by omega), hstart]
  · rw [exec_readflags_eq, if_pos hw]
    rfl
  · rw [exec_readflags_eq, if_neg (by omega), if_neg (not_not.2 haligned), if_pos hend]
    rfl
  · obtain ⟨h1, haligned, hread⟩ := readflags_next_of_ok hx hok
    refine ⟨hread, fun hlt m hm1 hm8 => ?_⟩
    obtain ⟨hfit, rfl⟩ := readbits_next_of_ok hread hok
    have hpos := s.advance_bitpos_toNat n.toNat (zext64 (s.bits s.bitpos.toNat n.toNat)) (by omega)
    rw [exec_readflags_of_misaligned hm1 hm8 (by omega)]
    rfl

end Sys2Proof.Machine
end

section
/-! ### The command cycle: a command in flight runs, completes and leaves the unit free (R54, R55, R91, R100) -/

namespace Sys2Proof.Machine

variable {s : State} {i : Instr}

/-- R78: IllegalCommand is the one error above code 4. -/
theorem ErrorKind.code_le_four {e : ErrorKind} (he : e ≠ .illegalCommand) : e.code.toNat ≤ 4 := by
  cases e with
  | illegalCommand => exact absurd rfl he
  | endOfStream | invalidArgument | invalidState | unimplemented => decide

/-- Settles O39: attaching, failing and advancing each end in a response. -/
theorem everyCommandCompletes : Obligations.EveryCommandCompletes := by
  intro i s
  rcases exec_cases s i with ⟨l, _, h⟩ | ⟨e, he, h⟩ | ⟨n, v, _, h, _⟩
  · exact ⟨_, h, rfl, rfl, Nat.zero_le 4⟩
  · exact ⟨_, h, rfl, rfl, ErrorKind.code_le_four he⟩
  · exact ⟨_, h, rfl, rfl, Nat.zero_le 4⟩

theorem exec_not_busy {t : State} (hx : exec i s = .next t) : t.busy = false := by
  obtain ⟨u, hu, _, hbusy, _⟩ := everyCommandCompletes i s
  obtain rfl := next_inj (hx.symm.trans hu)
  exact hbusy

/-- Settles O51: of the things a step can do, only waiting keeps BUSY and only accepting sets it. -/
theorem oneCommandInFlight : Obligations.OneCommandInFlight := by
  intro s t hstep hbusy
  rcases step_cases s with ⟨_, hs⟩ | ⟨_, hb, hw, hs⟩ | ⟨_, _, _, _, hs⟩ | ⟨_, _, _, _, _, _, hs⟩ |
    ⟨i, _, _, _, _, _, hs⟩ | ⟨_, hb, _, _, hs⟩ | ⟨_, hb, _, _, hs⟩ | ⟨_, hb, hv, hoffer, hs⟩ | ⟨_, hb, _, _, hs⟩ <;>
    rw [hs] at hstep
  · simp [← next_inj hstep] at hbusy
  · exact .inl ⟨hb, by simp [← next_inj hstep], hw⟩
  · simp [← next_inj hstep] at hbusy
  · cases hstep
  · simp [exec_not_busy hstep] at hbusy
  · simp [← next_inj hstep, hb] at hbusy
  · simp [← next_inj hstep, hb] at hbusy
  · exact .inr ⟨by simp [State.ready, hb, hv], hoffer, by simp [← next_inj hstep]⟩
  · simp [← next_inj hstep, hb] at hbusy

/-- The completion edge of a command that no refusal stops. -/
theorem step_of_command (hr : s.edge.rst = false) (hb : s.busy = true) (hw : s.atEdge.waits s.edge = false)
    (hd : decode s.cmdLatch = .ok i) (hc : s.atEdge.readsChangedBuffer i = false) : step s = exec i s.atEdge := by
  simp [step_eq, clockEdge, completeCommand, hr, hb, hw, hd, hc]

theorem tableWord_toNat (w : Word) : tableWord 32 w.toNat = w := by
  rw [tableWord, Nat.mod_eq_of_lt w.isLt, BitVec.ofNat_toNat, BitVec.setWidth_eq]

/-- A word placed in flight meets quiet ports and an unchanged buffer, so the next step runs its command (log 5). -/
theorem step_inFlight {w : Word} (s : State) (hd : decode w = .ok i) : step (s.inFlight w) = exec i (s.inFlight w) := by
  have hat : (s.inFlight w).atEdge = s.inFlight w := State.atEdge_of_rest _ rfl rfl
  rw [step_of_command rfl rfl rfl hd (by rw [hat]; rfl), hat]

/-- Settles O47: the completion edge in general, and the one `withFetchWord` prepares. -/
theorem stepRunsTheDecodedCommand : Obligations.StepRunsTheDecodedCommand := by
  refine ⟨fun s i => step_of_command, fun s w i hd => ?_⟩
  rw [State.withFetchWord, tableWord_toNat]
  exact ⟨rfl, step_inFlight s hd⟩

end Sys2Proof.Machine
end

section
/-! ### What the decoding commands make of CodeNum (R68 to R71) -/

namespace Sys2Proof.Machine

variable {s t : State}

/-- The state a decoding command leaves, where `val` is the value it makes of the code number. -/
def State.decoded (s : State) (val : Nat → Value) : State :=
  match s.codeNum s.bitpos.toNat with
  | .error e => s.raise e
  | .ok (c, l) => s.advance (s.bitpos.toNat + l) (val c)

theorem State.decoded_of_error {e : ErrorKind} (h : s.codeNum s.bitpos.toNat = .error e) (val : Nat → Value) :
    s.decoded val = s.raise e := by
  rw [State.decoded, h]

theorem State.decoded_of_ok {c l : Nat} (h : s.codeNum s.bitpos.toNat = .ok (c, l)) (val : Nat → Value) :
    s.decoded val = s.advance (s.bitpos.toNat + l) (val c) := by
  rw [State.decoded, h]

theorem exec_readcodenum_eq (a : Arg) (s : State) : exec (.readcodenum a) s = .next (s.decoded zext64) := by
  rcases h : s.codeNum s.bitpos.toNat with e | ⟨c, l⟩
  · rw [State.decoded_of_error h, exec, execReadcodenum, h]
  · rw [State.decoded_of_ok h, exec, execReadcodenum, h]

/-- Settles O28: the two commands have one meaning, and it does not look at ARG. -/
theorem readueIsReadcodenum : Obligations.ReadueIsReadcodenum := fun _ _ _ => rfl

theorem exec_readue_eq (a : Arg) (s : State) : exec (.readue a) s = .next (s.decoded zext64) :=
  (readueIsReadcodenum a a s).trans (exec_readcodenum_eq a s)

theorem exec_readse_eq (a : Arg) (s : State) :
    exec (.readse a) s = .next (s.decoded fun c => twos64 (signedOfCodeNum c)) := by
  rcases h : s.codeNum s.bitpos.toNat with e | ⟨c, l⟩
  · rw [State.decoded_of_error h, exec, execReadse, h]
  · rw [State.decoded_of_ok h, exec, execReadse, h]

/-- A code that is decoded has at most 32 leading zeros (R68). -/
theorem State.codeNum_eq_ok {p c l : Nat} (h : s.codeNum p = .ok (c, l)) :
    ∃ k, s.firstOneAfter p k ∧ k ≤ 32 ∧ p + 2 * k + 1 ≤ 8 * s.len.toNat ∧
      c = 2 ^ k - 1 + s.bits (p + k + 1) k ∧ l = 2 * k + 1 := by
  rcases s.codeNum_cases p with ⟨_, hr⟩ | ⟨_, _, _, hr⟩ | ⟨_, _, _, _, _, hr⟩ | ⟨k, hk, h32, hfit, hr⟩
  · cases h.symm.trans hr
  · cases h.symm.trans hr
  · cases h.symm.trans hr
  · cases h.symm.trans hr
    exact ⟨k, hk, h32, hfit, rfl, rfl⟩

theorem State.codeNum_ok_le {p c l : Nat} (h : s.codeNum p = .ok (c, l)) : c ≤ 2 ^ 33 - 2 ∧ l ≤ 65 := by
  obtain ⟨k, _, h32, _, rfl, rfl⟩ := State.codeNum_eq_ok h
  exact ⟨codeNumber_bound k _ h32 (s.bits_lt _ k), by omega⟩

/-- The state a decoding command leaves: a failure, or an advance over a code within the limits of R72. -/
theorem State.decoded_cases (s : State) (val : Nat → Value) :
    (∃ e, s.decoded val = s.raise e) ∨
    (∃ c l, c ≤ 2 ^ 33 - 2 ∧ l ≤ 65 ∧ s.decoded val = s.advance (s.bitpos.toNat + l) (val c)) := by
  rcases h : s.codeNum s.bitpos.toNat with e | ⟨c, l⟩
  · exact .inl ⟨e, State.decoded_of_error h val⟩
  · obtain ⟨hc, hl⟩ := State.codeNum_ok_le h
    exact .inr ⟨c, l, hc, hl, State.decoded_of_ok h val⟩

/-- Settles O27: the four outcomes of CodeNum; the suffix is the number its bits spell. -/
theorem readcodenumAndReadueDecode : Obligations.ReadcodenumAndReadueDecode := by
  refine fun a s => ⟨decodeOfEncodeIsTheCommand (.readcodenum a), decodeOfEncodeIsTheCommand (.readue a), ?_⟩
  intro i hi
  have hexec : exec i s = .next (s.decoded zext64) := by
    rcases hi with rfl | rfl
    · exact exec_readcodenum_eq a s
    · exact exec_readue_eq a s
  rw [hexec]
  refine ⟨fun k hk h32 hfit => ?_, fun hno => ?_, fun k hk hlong => ?_, fun k hk h32 hcut => ?_⟩
  · refine ⟨s.bits (s.bitpos.toNat + k + 1) k, s.bits_lt _ k, ?_, fun j hj => s.bits_testBit _ k j hj⟩
    rw [State.decoded_of_ok (s.codeNum_of_complete _ k hk h32 hfit), ← Nat.add_assoc]
    rfl
  · rw [State.decoded_of_error (s.codeNum_of_noOne _ hno)]
    rfl
  · rw [State.decoded_of_error (s.codeNum_of_long _ k hk hlong)]
    rfl
  · have h1 : 1 ≤ k := by
      have hone := hk.1
      omega
    rw [State.decoded_of_error (s.codeNum_of_truncated _ k hk h1 h32 hcut)]
    rfl

/-- Settles O34: the three forms fail without a check. -/
theorem declaredFormsAreUnimplemented : Obligations.DeclaredFormsAreUnimplemented := by
  refine fun a s i => ⟨decodeOfEncodeIsTheCommand (.readtcodenum a), decodeOfEncodeIsTheCommand (.readme a),
    decodeOfEncodeIsTheCommand (.readte a), ?_⟩
  rintro (rfl | rfl | rfl)
  · exact ⟨rfl, rfl⟩
  · exact ⟨rfl, rfl⟩
  · exact ⟨rfl, rfl⟩

end Sys2Proof.Machine
end

section
/-! ### The signed value and the ranges of the results (R71, R72) -/

namespace Sys2Proof.Machine

theorem signedOfCodeNum_bounds {c : Nat} (hc : c ≤ 2 ^ 33 - 2) :
    -(2 ^ 32 - 1) ≤ signedOfCodeNum c ∧ signedOfCodeNum c ≤ 2 ^ 32 - 1 := by
  unfold signedOfCodeNum
  split <;> omega

/-- The signed value of a code number fits the response, so its two's complement loses nothing. -/
theorem twos64_signedOfCodeNum_toInt {c : Nat} (hc : c ≤ 2 ^ 33 - 2) :
    (twos64 (signedOfCodeNum c)).toInt = signedOfCodeNum c := by
  obtain ⟨hlow, hhigh⟩ := signedOfCodeNum_bounds hc
  exact BitVec.toInt_ofInt_eq_self (by decide) (by omega) (by omega)

/-- Settles O29: both commands decode one code number, and differ in the value they make of it. -/
theorem readseIsTheZigzagOfTheCodeNumber : Obligations.ReadseIsTheZigzagOfTheCodeNumber := by
  refine fun a s => ⟨decodeOfEncodeIsTheCommand (.readse a), s.decoded zext64, exec_readcodenum_eq a s, ?_⟩
  rw [exec_readse_eq]
  rcases h : s.codeNum s.bitpos.toNat with e | ⟨c, l⟩
  · rw [State.decoded_of_error h, State.decoded_of_error h]
    exact ⟨fun _ => rfl, fun hok => absurd hok (s.raise_status_ne e)⟩
  · obtain ⟨hc, _⟩ := State.codeNum_ok_le h
    rw [State.decoded_of_ok h, State.decoded_of_ok h]
    refine ⟨fun hfail => absurd rfl hfail, fun _ => ⟨twos64 (signedOfCodeNum c), rfl, ?_⟩⟩
    rw [twos64_signedOfCodeNum_toInt hc, signedOfCodeNum_eq, State.advance_rspValue, zext64_toNat c (by omega)]

theorem State.decoded_bitpos_le (s : State) (val : Nat → Value) :
    (s.decoded val).bitpos.toNat ≤ s.bitpos.toNat + 65 := by
  rcases s.decoded_cases val with ⟨e, h⟩ | ⟨c, l, _, hl, h⟩
  · rw [h, State.raise_bitpos]
    exact Nat.le_add_right _ 65
  · rw [h, State.advance_bitpos, BitVec.toNat_ofNat]
    exact (Nat.mod_le _ _).trans (Nat.add_le_add_left hl _)

theorem State.decoded_zext64_le (s : State) : (s.decoded zext64).rspValue.toNat ≤ 2 ^ 33 - 2 := by
  rcases s.decoded_cases zext64 with ⟨e, h⟩ | ⟨c, l, hc, _, h⟩
  · rw [h]
    exact Nat.zero_le _
  · rw [h, State.advance_rspValue, zext64_toNat c (by omega)]
    exact hc

theorem State.decoded_signed_bounds (s : State) :
    -(2 ^ 32 - 1) ≤ (s.decoded fun c => twos64 (signedOfCodeNum c)).rspValue.toInt ∧
      (s.decoded fun c => twos64 (signedOfCodeNum c)).rspValue.toInt ≤ 2 ^ 32 - 1 := by
  rcases s.decoded_cases fun c => twos64 (signedOfCodeNum c) with ⟨e, h⟩ | ⟨c, l, hc, _, h⟩
  · rw [h, State.raise_rspValue]
    decide
  · rw [h, State.advance_rspValue, twos64_signedOfCodeNum_toInt hc]
    exact signedOfCodeNum_bounds hc

/-- A count of zeros is smaller than the number of bits in a buffer (R72). -/
theorem skiplz_rspValue_lt {a : Arg} {s t : State} (hx : exec (.skiplz a) s = .next t) : t.rspValue.toNat < 2 ^ 27 := by
  rcases execSkiplz_cases s a with ⟨_, h⟩ | ⟨z, hz, h⟩
  · obtain rfl := next_inj (hx.symm.trans h)
    exact Nat.two_pow_pos 27
  · obtain rfl := next_inj (hx.symm.trans h)
    have hend := hz.1
    have hlen := s.bitLen_bound
    rw [State.advance_rspValue, zext64_toNat z (by omega)]
    omega

/-- Settles O33: a failure leaves 0 and the old position, and a success the value and the length of a decoded code. -/
theorem resultRanges : Obligations.ResultRanges := by
  refine fun a s t => ⟨skiplz_rspValue_lt, fun hx => ?_, fun hx => ?_⟩
  · rw [exec_readcodenum_eq, exec_readue_eq, or_self] at hx
    obtain rfl := next_inj hx
    exact ⟨s.decoded_zext64_le, s.decoded_bitpos_le zext64⟩
  · rw [exec_readse_eq] at hx
    obtain rfl := next_inj hx
    obtain ⟨hlow, hhigh⟩ := s.decoded_signed_bounds
    exact ⟨hlow, hhigh, s.decoded_bitpos_le _⟩

end Sys2Proof.Machine
end

section
/-! ### The Exp-Golomb code as a row of stream bits (R67) -/

namespace Sys2Proof.Machine

variable {s : State}

/-- Every number is 2^k - 1 + x for a suffix `x` of `k` bits. -/
theorem exists_suffix_of_code (v : Nat) : ∃ k x, x < 2 ^ k ∧ v = 2 ^ k - 1 + x := by
  have hlow : 2 ^ (v + 1).log2 ≤ v + 1 := Nat.log2_self_le (Nat.succ_ne_zero v)
  have hhigh : v + 1 < 2 ^ ((v + 1).log2 + 1) := Nat.lt_log2_self
  rw [Nat.pow_succ] at hhigh
  exact ⟨(v + 1).log2, v + 1 - 2 ^ (v + 1).log2, by omega, by omega⟩

/-- The code of 2^k - 1 + x: `k` zeros, a 1, and `x` in `k` bits. -/
theorem expGolombCode_eq {k x : Nat} (hx : x < 2 ^ k) :
    expGolombCode (2 ^ k - 1 + x) = List.replicate k false ++ true :: suffixBits k x := by
  have hpos : 0 < 2 ^ k := Nat.two_pow_pos k
  have hnum : 2 ^ k - 1 + x + 1 = 2 ^ k + x := by omega
  have hlog : (2 ^ k + x).log2 = k := by
    rw [Nat.log2_eq_iff (by omega), Nat.pow_succ]
    omega
  rw [expGolombCode, hnum, hlog, Nat.add_sub_cancel_left]

theorem suffixBits_length (k x : Nat) : (suffixBits k x).length = k := by
  rw [suffixBits, List.length_map, List.length_range]

theorem suffixBits_getElem (k x : Nat) {i : Nat} (hi : i < (suffixBits k x).length) :
    (suffixBits k x)[i] = x.testBit (k - 1 - i) := by
  simp only [suffixBits, List.getElem_map, List.getElem_range]

theorem expGolombCode_length {k x : Nat} (hx : x < 2 ^ k) : (expGolombCode (2 ^ k - 1 + x)).length = 2 * k + 1 := by
  rw [expGolombCode_eq hx, List.length_append, List.length_replicate, List.length_cons, suffixBits_length]
  omega

theorem State.holds_cons (p : Nat) (b : Bool) (l : List Bool) :
    s.holds p (b :: l) ↔ s.bitAt p = b ∧ s.holds (p + 1) l := by
  have hshift : ∀ i, p + (i + 1) = p + 1 + i := fun i => by omega
  constructor
  · rintro ⟨hend, hbits⟩
    rw [List.length_cons, hshift] at hend
    refine ⟨hbits 0 (Nat.succ_pos _), hend, fun i hi => ?_⟩
    rw [← hshift]
    exact hbits (i + 1) (Nat.succ_lt_succ hi)
  · rintro ⟨hfirst, hend, hbits⟩
    refine ⟨by rwa [List.length_cons, hshift], fun i hi => ?_⟩
    cases i with
    | zero => exact hfirst
    | succ i =>
      rw [hshift]
      exact hbits i (Nat.lt_of_succ_lt_succ hi)

theorem State.firstOneAfter_zero (p : Nat) : s.firstOneAfter p 0 ↔ p < 8 * s.len.toNat ∧ s.bitAt p = true := by
  simp [State.firstOneAfter]

theorem State.firstOneAfter_succ (p k : Nat) :
    s.firstOneAfter p (k + 1) ↔ s.bitAt p = false ∧ s.firstOneAfter (p + 1) k := by
  have hshift : ∀ j, p + (j + 1) = p + 1 + j := fun j => by omega
  have hzeros : (∀ j < k + 1, s.bitAt (p + j) = false) ↔
      s.bitAt p = false ∧ ∀ j < k, s.bitAt (p + 1 + j) = false := by
    rw [Nat.forall_lt_succ_left, Nat.add_zero]
    exact and_congr_right fun _ => forall₂_congr fun j _ => by rw [hshift]
  rw [State.firstOneAfter, State.firstOneAfter, hzeros, hshift]
  tauto

/-- Zeros and a 1 stand before a row of bits exactly where the first 1 bit is and the row follows it. -/
theorem State.holds_zeros_one (p k : Nat) (l : List Bool) :
    s.holds p (List.replicate k false ++ true :: l) ↔ s.firstOneAfter p k ∧ s.holds (p + k + 1) l := by
  induction k generalizing p with
  | zero =>
    rw [List.replicate_zero, List.nil_append, s.holds_cons, s.firstOneAfter_zero, Nat.add_zero]
    refine ⟨fun ⟨hone, hl⟩ => ⟨⟨?_, hone⟩, hl⟩, fun ⟨⟨_, hone⟩, hl⟩ => ⟨hone, hl⟩⟩
    have hend := hl.1
    omega
  | succ k ih =>
    have hshift : p + 1 + k + 1 = p + (k + 1) + 1 := by omega
    rw [List.replicate_succ, List.cons_append, s.holds_cons, ih, s.firstOneAfter_succ, and_assoc, hshift]

/-- Two numbers of `k` bits that agree in each bit, counted from the most significant, are equal. -/
theorem eq_of_testBit_from_top {k x y : Nat} (hx : x < 2 ^ k) (hy : y < 2 ^ k)
    (h : ∀ i < k, x.testBit (k - 1 - i) = y.testBit (k - 1 - i)) : x = y := by
  refine Nat.eq_of_testBit_eq fun j => ?_
  by_cases hj : j < k
  · have hrev : k - 1 - (k - 1 - j) = j := by omega
    rw [← hrev]
    exact h (k - 1 - j) (by omega)
  · have hpow : 2 ^ k ≤ 2 ^ j := Nat.pow_le_pow_right (by decide) (Nat.not_lt.1 hj)
    rw [Nat.testBit_lt_two_pow (hx.trans_le hpow), Nat.testBit_lt_two_pow (hy.trans_le hpow)]

/-- The suffix `x` stands where the next `k` bits spell `x`. -/
theorem State.holds_suffixBits (p : Nat) {k x : Nat} (hx : x < 2 ^ k) :
    s.holds p (suffixBits k x) ↔ p + k ≤ 8 * s.len.toNat ∧ s.bits p k = x := by
  simp only [State.holds, suffixBits_length, suffixBits_getElem]
  refine and_congr_right fun _ => ⟨fun hbits => ?_, ?_⟩
  · refine eq_of_testBit_from_top (s.bits_lt p k) hx fun i hi => ?_
    rw [s.bits_testBit p k i hi, hbits i hi]
  · rintro rfl i hi
    rw [s.bits_testBit p k i hi]

/-- R67 on the stream: the code of 2^k - 1 + x stands at `p` exactly where `k` zeros and a 1 stand and the `k` bits
behind them, inside the buffer, spell `x`. -/
theorem State.holds_expGolombCode (p : Nat) {k x : Nat} (hx : x < 2 ^ k) :
    s.holds p (expGolombCode (2 ^ k - 1 + x)) ↔
      s.firstOneAfter p k ∧ p + 2 * k + 1 ≤ 8 * s.len.toNat ∧ s.bits (p + k + 1) k = x := by
  have hend : p + k + 1 + k = p + 2 * k + 1 := by omega
  rw [expGolombCode_eq hx, s.holds_zeros_one, s.holds_suffixBits _ hx, hend]

/-- No two codes stand at one position: the first 1 bit gives the length and the rest gives the suffix. -/
theorem State.expGolombCode_unique {p v w : Nat} (hv : s.holds p (expGolombCode v)) (hw : s.holds p (expGolombCode w)) :
    v = w := by
  obtain ⟨k, x, hx, rfl⟩ := exists_suffix_of_code v
  obtain ⟨m, y, hy, rfl⟩ := exists_suffix_of_code w
  obtain ⟨hk, _, hxbits⟩ := (s.holds_expGolombCode p hx).1 hv
  obtain ⟨hm, _, hybits⟩ := (s.holds_expGolombCode p hy).1 hw
  obtain rfl := s.firstOneAfter_unique p k m hk hm
  rw [← hxbits, ← hybits]

/-- CodeNum decodes the code of every number up to 2^33 - 2: it has at most 32 leading zeros. -/
theorem State.codeNum_of_holds {p v : Nat} (hv : v ≤ 2 ^ 33 - 2) (h : s.holds p (expGolombCode v)) :
    s.codeNum p = .ok (v, (expGolombCode v).length) := by
  obtain ⟨k, x, hx, rfl⟩ := exists_suffix_of_code v
  obtain ⟨hk, hfit, hbits⟩ := (s.holds_expGolombCode p hx).1 h
  have h32 : k ≤ 32 := by
    by_contra hlong
    have hpow : 2 ^ 33 ≤ 2 ^ k := Nat.pow_le_pow_right (by decide) (Nat.not_le.1 hlong)
    omega
  rw [s.codeNum_of_complete p k hk h32 hfit, hbits, expGolombCode_length hx]

/-- What CodeNum decodes is the code that stands there. -/
theorem State.holds_of_codeNum {p c l : Nat} (h : s.codeNum p = .ok (c, l)) :
    s.holds p (expGolombCode c) ∧ l = (expGolombCode c).length := by
  obtain ⟨k, hk, _, hfit, rfl, rfl⟩ := State.codeNum_eq_ok h
  have hx := s.bits_lt (p + k + 1) k
  exact ⟨(s.holds_expGolombCode p hx).2 ⟨hk, hfit, rfl⟩, (expGolombCode_length hx).symm⟩

/-- The signed map by the half of the code number, rounded down. -/
theorem signedOfCodeNum_eq_half (v : Nat) :
    signedOfCodeNum v = if v % 2 = 1 then ((v / 2 + 1 : Nat) : Int) else -((v / 2 : Nat) : Int) := by
  unfold signedOfCodeNum
  split
  · have hhalf : (v + 1) / 2 = v / 2 + 1 := by omega
    rw [hhalf]
  · rfl

/-- Settles O30: CodeNum reads the code that stands at BITPOS, and each command answers with its value. -/
theorem everyCodeNumberRoundTrips : Obligations.EveryCodeNumberRoundTrips := by
  rintro v a s hv hcode t rfl
  have hnum := State.codeNum_of_holds hv hcode
  rw [exec_readue_eq, exec_readcodenum_eq, exec_readse_eq, State.decoded_of_ok hnum, State.decoded_of_ok hnum,
    signedOfCodeNum_eq_half]
  exact ⟨rfl, rfl, rfl⟩

/-- Settles O31: CodeNum has read the code that stands there, and two codes do not stand at one position. -/
theorem decodedCodeIsTheOnlyCode : Obligations.DecodedCodeIsTheOnlyCode := by
  intro a s t hx hok
  rw [exec_readue_eq] at hx
  obtain rfl := next_inj hx
  rcases h : s.codeNum s.bitpos.toNat with e | ⟨c, l⟩
  · rw [State.decoded_of_error h] at hok
    exact absurd hok (s.raise_status_ne e)
  · obtain ⟨hc, _⟩ := State.codeNum_ok_le h
    obtain ⟨hcode, rfl⟩ := State.holds_of_codeNum h
    rw [State.decoded_of_ok h, s.advance_bitpos_toNat _ _ (hcode.1.trans (Nat.le_add_right _ 7)),
      State.advance_rspValue, zext64_toNat c (by omega)]
    exact ⟨hcode, rfl, fun v hv => State.expGolombCode_unique hv hcode⟩

end Sys2Proof.Machine
end

section
/-! ### READCODENUM against SKIPLZ and READBITS (R68, R69) -/

namespace Sys2Proof.Machine

variable {s : State}

/-- READBITS of `k` after SKIPLZ has returned `k`, from the state SKIPLZ left: where it succeeds, READCODENUM has the
sum; where it fails, READCODENUM fails alike from the old position. -/
theorem readbits_after_skiplz (a : Arg) {k : Nat} (hk : s.firstOneAfter s.bitpos.toNat k) (h1 : 1 ≤ k)
    (h24 : k < 2 ^ 24) :
    ∃ u, exec (.readbits (BitVec.ofNat 24 k)) (s.advance (s.bitpos.toNat + k + 1) (zext64 k)) = .next u ∧
      (u.rspStatus = 0 → exec (.readcodenum a) s = .next { u with
        rspValue := BitVec.ofNat 64 (2 ^ k - 1 + u.rspValue.toNat) }) ∧
      (u.rspStatus ≠ 0 → exec (.readcodenum a) s = .next { u with bitpos := s.bitpos }) := by
  have hn : (BitVec.ofNat 24 k).toNat = k := Nat.mod_eq_of_lt h24
  have hpos : (s.advance (s.bitpos.toNat + k + 1) (zext64 k)).bitpos.toNat = s.bitpos.toNat + k + 1 :=
    s.advance_bitpos_toNat (k + 1) (zext64 k) (Nat.le_add_right_of_le hk.1)
  rw [exec_readcodenum_eq, exec_readbits_eq, hn, hpos, State.advance_len, s.advance_bits]
  by_cases hlong : 32 < k
  · rw [if_pos (.inr hlong), State.decoded_of_error (s.codeNum_of_long _ k hk hlong)]
    exact ⟨_, rfl, fun hok => absurd hok (State.raise_status_ne _ _), fun _ => rfl⟩
  · rw [if_neg (by omega)]
    by_cases hcut : 8 * s.len.toNat < s.bitpos.toNat + k + 1 + k
    · rw [if_pos hcut, State.decoded_of_error (s.codeNum_of_truncated _ k hk h1 (by omega) (by omega))]
      exact ⟨_, rfl, fun hok => absurd hok (State.raise_status_ne _ _), fun _ => rfl⟩
    · have hend : s.bitpos.toNat + (2 * k + 1) = s.bitpos.toNat + k + 1 + k := by omega
      rw [if_neg hcut, State.decoded_of_ok (s.codeNum_of_complete _ k hk (by omega) (by omega)), hend]
      refine ⟨_, rfl, fun _ => ?_, fun hfail => absurd rfl hfail⟩
      rw [State.advance_rspValue, s.zext64_bits_toNat _ (by omega)]
      rfl

/-- Settles O32: SKIPLZ finds no 1 bit, or one at once, or one behind `k` zeros. -/
theorem decodeIsSkiplzThenReadbits : Obligations.DecodeIsSkiplzThenReadbits := by
  intro a s t hx
  rcases execSkiplz_cases s a with ⟨hno, h⟩ | ⟨k, hk, h⟩
  · obtain rfl := next_inj (hx.symm.trans h)
    have hfail := s.raise_status_ne .endOfStream
    refine ⟨fun _ => ?_, fun hok => absurd hok hfail, fun hok => absurd hok hfail⟩
    rw [exec_readcodenum_eq, State.decoded_of_error (s.codeNum_of_noOne _ hno)]
  · have hvalue : t.rspValue.toNat < 2 ^ 27 := skiplz_rspValue_lt hx
    obtain rfl := next_inj (hx.symm.trans h)
    have hend := hk.1
    have hlen := s.bitLen_bound
    rw [State.advance_rspValue, zext64_toNat k (by omega)]
    refine ⟨fun hfail => absurd rfl hfail, fun _ hzero => ?_, fun _ => readbits_after_skiplz a hk⟩
    subst hzero
    rw [exec_readcodenum_eq, State.decoded_of_ok (s.codeNum_of_complete _ 0 hk (by decide) hend)]
    rfl

end Sys2Proof.Machine
end

section
/-! ### A result depends on the bits the command examines (R33, R38, R41, R76) -/

namespace Sys2Proof.Machine

/-- Two states with the same cursor and the same response. -/
def SameResult (s t : State) : Prop :=
  s.bitpos = t.bitpos ∧ s.len = t.len ∧ s.rspStatus = t.rspStatus ∧ s.rspValue = t.rspValue

/-- The command answers a next state in both, with the same result. -/
def AnswersAlike (i : Instr) (s t : State) : Prop :=
  ∃ s' t', exec i s = .next s' ∧ exec i t = .next t' ∧ SameResult s' t'

/-- Two buffers agree on `r.2` stream bits from `r.1` on. -/
def AgreeOn (s t : State) (r : Nat × Nat) : Prop := ∀ j < r.2, s.bitAt (r.1 + j) = t.bitAt (r.1 + j)

variable {s t : State} {i : Instr}

theorem AgreeOn.byte_eq {a : Nat} (h : AgreeOn s t (8 * a, 8)) : s.buf a = t.buf a :=
  BitVec.eq_of_toNat_eq (by rw [← s.bits_whole_byte, ← t.bits_whole_byte, State.bits_congr s t _ _ h])

theorem AgreeOn.firstOneAfter {p z n : Nat} (h : AgreeOn s t (p, n)) (hlen : s.len = t.len) (hn : z < n)
    (hz : s.firstOneAfter p z) : t.firstOneAfter p z :=
  (State.firstOneAfter_congr s t p z hlen fun j hj => h j (Nat.lt_of_le_of_lt hj hn)).1 hz

theorem AgreeOn.noOneFrom {p : Nat} (h : AgreeOn s t (p, 8 * s.len.toNat - p)) (hlen : s.len = t.len)
    (hno : s.noOneFrom p) : t.noOneFrom p := by
  intro q hp hq
  obtain ⟨j, rfl⟩ := Nat.exists_eq_add_of_le hp
  rw [← hlen] at hq
  rw [← h j (by dsimp only; omega)]
  exact hno _ hp hq

/-- CodeNum depends on the bits it examines: in each of its outcomes they decide it. -/
theorem AgreeOn.codeNum_eq {p : Nat} (h : AgreeOn s t (p, s.codeBits p)) (hlen : s.len = t.len) :
    s.codeNum p = t.codeNum p := by
  rcases s.codeBits_cases p with ⟨hno, hbits⟩ | ⟨k, hk, hcut, hbits⟩ | ⟨k, hk, h32, hfit, hbits⟩ <;> rw [hbits] at h
  · rw [s.codeNum_of_noOne p hno, t.codeNum_of_noOne p (h.noOneFrom hlen hno)]
  · have hkt := h.firstOneAfter hlen (Nat.lt_succ_self k) hk
    have hone := hk.1
    by_cases hlong : 32 < k
    · rw [s.codeNum_of_long p k hk hlong, t.codeNum_of_long p k hkt hlong]
    · have hend : 8 * s.len.toNat < p + 2 * k + 1 := hcut.resolve_left hlong
      rw [s.codeNum_of_truncated p k hk (by omega) (by omega) hend,
        t.codeNum_of_truncated p k hkt (by omega) (by omega) (hlen ▸ hend)]
  · have hkt := h.firstOneAfter hlen (by omega) hk
    have hsuffix : s.bits (p + k + 1) k = t.bits (p + k + 1) k := by
      refine State.bits_congr s t _ _ fun j hj => ?_
      rw [Nat.add_assoc, Nat.add_assoc]
      exact h (k + (1 + j)) (by dsimp only; omega)
    rw [s.codeNum_of_complete p k hk h32 hfit, t.codeNum_of_complete p k hkt h32 (hlen ▸ hfit), hsuffix]

section
variable (hpos : s.bitpos = t.bitpos) (hlen : s.len = t.len)
include hlen

theorem answersAlike_of_advance {p : Nat} {v : Value} (hs : exec i s = .next (s.advance p v))
    (ht : exec i t = .next (t.advance p v)) : AnswersAlike i s t :=
  ⟨_, _, hs, ht, rfl, hlen, rfl, rfl⟩

include hpos

theorem answersAlike_of_raise {e : ErrorKind} (hs : exec i s = .next (s.raise e)) (ht : exec i t = .next (t.raise e)) :
    AnswersAlike i s t :=
  ⟨_, _, hs, ht, hpos, hlen, rfl, rfl⟩

/-- A check both states fail or pass alike. -/
theorem answersAlike_of_check {c : Prop} [Decidable c] {e : ErrorKind} {rs rt : Host.Outcome State Fault Refusal}
    (hs : exec i s = if c then .next (s.raise e) else rs) (ht : exec i t = if c then .next (t.raise e) else rt)
    (hpass : ¬c → exec i s = rs → exec i t = rt → AnswersAlike i s t) : AnswersAlike i s t := by
  by_cases hc : c
  · rw [if_pos hc] at hs ht
    exact answersAlike_of_raise hpos hlen hs ht
  · rw [if_neg hc] at hs ht
    exact hpass hc hs ht

theorem readbyte_answersAlike {a : Arg} (h : AgreeOn s t (s.examined (.readbyte a))) :
    AnswersAlike (.readbyte a) s t := by
  have ht := exec_readbyte_eq t a
  rw [← hpos, ← hlen] at ht
  refine answersAlike_of_check hpos hlen (exec_readbyte_eq s a) ht fun hbyte hs ht => ?_
  rw [s.examined_readbyte, if_pos (Nat.not_le.1 hbyte)] at h
  rw [← h.byte_eq] at ht
  exact answersAlike_of_advance hlen hs ht

theorem readbits_answersAlike {n : Arg} (h : AgreeOn s t (s.examined (.readbits n))) :
    AnswersAlike (.readbits n) s t := by
  have ht := exec_readbits_eq t n
  rw [← hpos, ← hlen] at ht
  refine answersAlike_of_check hpos hlen (exec_readbits_eq s n) ht fun hw hs ht =>
    answersAlike_of_check hpos hlen hs ht fun hfit hs ht => ?_
  rw [s.examined_readbits, if_pos (by omega)] at h
  rw [← State.bits_congr s t _ _ h] at ht
  exact answersAlike_of_advance hlen hs ht

/-- Past its checks READFLAGS examines and answers what READBITS does. -/
theorem readflags_answersAlike {n : Arg} (h : AgreeOn s t (s.examined (.readflags n))) :
    AnswersAlike (.readflags n) s t := by
  have ht := exec_readflags_eq t n
  rw [← hpos, ← hlen] at ht
  refine answersAlike_of_check hpos hlen (exec_readflags_eq s n) ht fun hw hs ht =>
    answersAlike_of_check hpos hlen hs ht fun haligned hs ht =>
    answersAlike_of_check hpos hlen hs ht fun hbyte hs ht => ?_
  have hstart : 8 * (s.bitpos.toNat / 8) = s.bitpos.toNat := by omega
  have hsame : s.examined (.readflags n) = s.examined (.readbits n) := by
    rw [s.examined_readflags, s.examined_readbits, if_pos (by omega), if_pos (by omega), hstart]
  rw [AnswersAlike, hs, ht]
  exact readbits_answersAlike hpos hlen (hsame ▸ h)

theorem skipbyte_answersAlike (a : Arg) : AnswersAlike (.skipbyte a) s t := by
  have ht := exec_skipbyte_eq t a
  rw [← hpos, ← hlen] at ht
  exact answersAlike_of_check hpos hlen (exec_skipbyte_eq s a) ht fun _ hs ht => answersAlike_of_advance hlen hs ht

theorem skipbits_answersAlike (n : Arg) : AnswersAlike (.skipbits n) s t := by
  have ht := exec_skipbits_eq t n
  rw [← hpos, ← hlen] at ht
  exact answersAlike_of_check hpos hlen (exec_skipbits_eq s n) ht fun _ hs ht =>
    answersAlike_of_check hpos hlen hs ht fun _ hs ht => answersAlike_of_advance hlen hs ht

theorem skiplz_answersAlike {a : Arg} (h : AgreeOn s t (s.examined (.skiplz a))) : AnswersAlike (.skiplz a) s t := by
  rcases execSkiplz_cases s a with ⟨hno, hs⟩ | ⟨z, hz, hs⟩
  · rw [s.examined_skiplz_of_noOne a hno] at h
    exact answersAlike_of_raise hpos hlen hs
      (exec_skiplz_of_noOneFrom t a (hpos ▸ h.noOneFrom hlen hno))
  · rw [s.examined_skiplz_of_firstOne a z hz] at h
    have ht := exec_skiplz_of_firstOneAfter t a (hpos ▸ h.firstOneAfter hlen (Nat.lt_succ_self z) hz)
    rw [← hpos] at ht
    exact answersAlike_of_advance hlen hs ht

/-- The three decoding commands, with what each makes of the code number. -/
theorem code_answersAlike {val : Nat → Value} (hexec : ∀ u, exec i u = .next (u.decoded val))
    (h : AgreeOn s t (s.bitpos.toNat, s.codeBits s.bitpos.toNat)) : AnswersAlike i s t := by
  have hnum := h.codeNum_eq hlen
  rcases hs : s.codeNum s.bitpos.toNat with e | ⟨c, l⟩
  · have ht : t.codeNum t.bitpos.toNat = .error e := by rw [← hpos, ← hnum, hs]
    exact answersAlike_of_raise hpos hlen ((hexec s).trans (by rw [State.decoded_of_error hs]))
      ((hexec t).trans (by rw [State.decoded_of_error ht]))
  · have ht : t.codeNum t.bitpos.toNat = .ok (c, l) := by rw [← hpos, ← hnum, hs]
    exact answersAlike_of_advance hlen ((hexec s).trans (by rw [State.decoded_of_ok hs]))
      ((hexec t).trans (by rw [State.decoded_of_ok ht, ← hpos]))

end

/-- Settles O17: one lemma for each command that reads or skips; INIT and the declared forms look at nothing. -/
theorem resultDependsOnExaminedBitsOnly : Obligations.ResultDependsOnExaminedBitsOnly := by
  intro i s t hpos hlen h
  cases i with
  | init l => exact ⟨_, _, rfl, rfl, rfl, rfl, rfl, rfl⟩
  | readbyte a => exact readbyte_answersAlike hpos hlen h
  | readbits n => exact readbits_answersAlike hpos hlen h
  | readflags n => exact readflags_answersAlike hpos hlen h
  | skipbyte a => exact skipbyte_answersAlike hpos hlen a
  | skipbits n => exact skipbits_answersAlike hpos hlen n
  | skiplz a => exact skiplz_answersAlike hpos hlen h
  | readcodenum a => exact code_answersAlike hpos hlen (exec_readcodenum_eq a) h
  | readue a => exact code_answersAlike hpos hlen (exec_readue_eq a) h
  | readse a => exact code_answersAlike hpos hlen (exec_readse_eq a) h
  | readtcodenum _ | readme _ | readte _ => exact answersAlike_of_raise hpos hlen rfl rfl

end Sys2Proof.Machine
end

section
/-! ### Failures (R77, R83): only the response changes, and no command looks at the response before it -/

namespace Sys2Proof.Machine

variable {s t : State} {i : Instr}

/-- A command that does not succeed has failed with one of the errors, and done nothing else. -/
theorem exec_raise_of_status_ne (hx : exec i s = .next t) (hne : t.rspStatus ≠ 0) : ∃ e, t = s.raise e := by
  rcases exec_next_cases hx with ⟨l, _, rfl⟩ | hraise | ⟨n, v, rfl, _⟩
  · exact absurd rfl hne
  · exact hraise
  · exact absurd rfl hne

/-- The completion edge: the word was no command (R50), or its command ran (R54). -/
theorem step_completion_cases (hr : s.edge.rst = false) (hb : s.busy = true) (hw : s.atEdge.waits s.edge = false)
    (hstep : step s = .next t) : t = s.atEdge.raise .illegalCommand ∨ ∃ i, exec i s.atEdge = .next t := by
  rw [step_eq, clockEdge, hr, s.atEdge_busy, hb, hw] at hstep
  change completeCommand s.atEdge = .next t at hstep
  rw [completeCommand] at hstep
  split at hstep
  · exact .inl (next_inj hstep).symm
  · split at hstep
    · cases hstep
    · exact .inr ⟨_, hstep⟩

/-- Settles O35: the state written out is that of `raise`, for a command that fails and for a word that is none. -/
theorem failureIsAtomic : Obligations.FailureIsAtomic := by
  refine ⟨fun i s t hx hne => ?_, fun s t hr hb hw hstep hne => ?_⟩
  · obtain ⟨e, rfl⟩ := exec_raise_of_status_ne hx hne
    rfl
  · rcases step_completion_cases hr hb hw hstep with rfl | ⟨i, hx⟩
    · rfl
    · obtain ⟨e, rfl⟩ := exec_raise_of_status_ne hx hne
      rfl

/-- The state with other contents in the response registers. -/
def State.withResponse (s : State) (c : BitVec 3) (v : Value) (b : Bool) : State :=
  { s with rspStatus := c, rspValue := v, rspValid := b }

variable (s) (c : BitVec 3) (v : Value) (b : Bool)

@[simp] theorem State.withResponse_bits (p n : Nat) : (s.withResponse c v b).bits p n = s.bits p n :=
  State.bits_congr _ _ p n fun _ _ => rfl

@[simp] theorem State.withResponse_lz (p : Nat) : (s.withResponse c v b).lz p = s.lz p :=
  State.lz_congr (s := s.withResponse c v b) (t := s) rfl (fun _ => rfl) p

@[simp] theorem State.withResponse_codeNum (p : Nat) : (s.withResponse c v b).codeNum p = s.codeNum p := by
  simp only [State.codeNum, State.withResponse_lz, State.withResponse_bits]
  rfl

@[simp] theorem State.withResponse_decoded (val : Nat → Value) :
    (s.withResponse c v b).decoded val = s.decoded val := by
  simp only [State.decoded, State.withResponse_codeNum]
  rfl

/-- Bits, scan and decode use the buffer and the cursor only, and every command overwrites the response. -/
theorem exec_withResponse (i : Instr) : exec i (s.withResponse c v b) = exec i s := by
  cases i with
  | readbits n =>
    rw [exec_readbits_eq, exec_readbits_eq, State.withResponse_bits]
    rfl
  | skiplz a =>
    rw [exec, execSkiplz, State.withResponse_lz]
    rfl
  | readcodenum a => rw [exec_readcodenum_eq, exec_readcodenum_eq, State.withResponse_decoded]
  | readue a => rw [exec_readue_eq, exec_readue_eq, State.withResponse_decoded]
  | readse a => rw [exec_readse_eq, exec_readse_eq, State.withResponse_decoded]
  | init _ | readbyte _ | readflags _ | skipbyte _ | skipbits _ | readtcodenum _ | readme _ | readte _ => rfl

/-- Settles O38: no command looks at the response registers. -/
theorem errorsAreNotSticky : Obligations.ErrorsAreNotSticky :=
  fun i s c v b => exec_withResponse s c v b i

end Sys2Proof.Machine
end

section
/-! ### The error table (R79) in the order of R80 -/

namespace Sys2Proof.Machine

/-- The error condition of R79 that comes first in the order of R80. An illegal word is no command. -/
def State.firstErrorWhen (s : State) (i : Instr) : ErrorKind → Prop
  | .unimplemented => unimplementedWhen i
  | .invalidArgument => s.invalidArgumentWhen i
  | .invalidState => s.invalidStateWhen i ∧ ¬s.invalidArgumentWhen i
  | .endOfStream => s.endOfStreamWhen i ∧ ¬s.invalidArgumentWhen i ∧ ¬s.invalidStateWhen i
  | .illegalCommand => False

/-- No error condition of R79 applies. -/
def State.noErrorWhen (s : State) (i : Instr) : Prop :=
  ¬unimplementedWhen i ∧ ¬s.invalidArgumentWhen i ∧ ¬s.invalidStateWhen i ∧ ¬s.endOfStreamWhen i

/-- The command answers as the error table says. -/
def FollowsTable (i : Instr) (s : State) : Prop :=
  (∃ e, s.firstErrorWhen i e ∧ exec i s = .next (s.raise e)) ∨
  (s.noErrorWhen i ∧ ∃ t, exec i s = .next t ∧ t.rspStatus = 0)

variable {s t : State} {i : Instr}

theorem followsTable_of_raise {e : ErrorKind} (hx : exec i s = .next (s.raise e)) (he : s.firstErrorWhen i e) :
    FollowsTable i s :=
  .inl ⟨e, he, hx⟩

theorem followsTable_of_advance {p : Nat} {v : Value} (hx : exec i s = .next (s.advance p v)) (hno : s.noErrorWhen i) :
    FollowsTable i s :=
  .inr ⟨hno, _, hx, rfl⟩

theorem readbyte_followsTable (a : Arg) (s : State) : FollowsTable (.readbyte a) s := by
  rcases execReadbyte_cases s a with ⟨hend, h⟩ | ⟨hbyte, h⟩
  · exact followsTable_of_raise h ⟨hend, id, id⟩
  · exact followsTable_of_advance h ⟨id, id, id, Nat.not_le.2 hbyte⟩

/-- READBITS and SKIPBITS share one row of R79: the width check, then the bound check. -/
theorem width_followsTable {n : Arg} {p : Nat} {v : Value}
    (hexec : exec i s = if n.toNat = 0 ∨ 32 < n.toNat then .next (s.raise .invalidArgument)
      else if 8 * s.len.toNat < s.bitpos.toNat + n.toNat then .next (s.raise .endOfStream)
      else .next (s.advance p v))
    (herr : s.firstErrorWhen i = s.firstErrorWhen (.readbits n))
    (hnone : s.noErrorWhen i = s.noErrorWhen (.readbits n)) : FollowsTable i s := by
  split at hexec
  next hw => exact followsTable_of_raise hexec (herr ▸ hw)
  next hw =>
    split at hexec
    next hend => exact followsTable_of_raise hexec (herr ▸ ⟨hend, hw, id⟩)
    next hfit => exact followsTable_of_advance hexec (hnone ▸ ⟨id, hw, id, hfit⟩)

theorem readflags_followsTable (n : Arg) (s : State) : FollowsTable (.readflags n) s := by
  rcases execReadflags_cases s n with ⟨hw, h⟩ | ⟨h1, h8, hmis, h⟩ | ⟨h1, h8, hal, hend, h⟩ |
    ⟨h1, h8, hal, hbyte, h⟩
  · exact followsTable_of_raise h hw
  all_goals have hw : ¬(n.toNat = 0 ∨ 8 < n.toNat) := by omega
  · exact followsTable_of_raise h ⟨hmis, hw⟩
  · exact followsTable_of_raise h ⟨hend, hw, not_not.2 hal⟩
  · exact followsTable_of_advance h ⟨id, hw, not_not.2 hal, Nat.not_le.2 hbyte⟩

theorem skipbyte_followsTable (a : Arg) (s : State) : FollowsTable (.skipbyte a) s := by
  rcases execSkipbyte_cases s a with ⟨hend, h⟩ | ⟨hfit, h⟩
  · exact followsTable_of_raise h ⟨hend, id, id⟩
  · exact followsTable_of_advance h ⟨id, id, id, Nat.not_lt.2 hfit⟩

theorem skiplz_followsTable (a : Arg) (s : State) : FollowsTable (.skiplz a) s := by
  rcases execSkiplz_cases s a with ⟨hno, h⟩ | ⟨z, hz, h⟩
  · exact followsTable_of_raise h ⟨hno, id, id⟩
  · exact followsTable_of_advance h ⟨id, id, id, State.not_noOneFrom_of_firstOneAfter hz⟩

/-- With a 1 bit after `k` zeros a code runs out exactly when its suffix is cut off. -/
theorem State.codeRunsOut_iff_of_firstOneAfter {k : Nat} (hk : s.firstOneAfter s.bitpos.toNat k) :
    s.codeRunsOut ↔ 1 ≤ k ∧ 8 * s.len.toNat < s.bitpos.toNat + 2 * k + 1 := by
  constructor
  · rintro (hno | ⟨j, hj, hcut⟩)
    · exact absurd hno (State.not_noOneFrom_of_firstOneAfter hk)
    · obtain rfl := s.firstOneAfter_unique _ j k hj hk
      exact hcut
  · exact fun hcut => .inr ⟨k, hk, hcut⟩

/-- Only the one count of zeros can be too large. -/
theorem State.not_long_of_firstOneAfter {p k : Nat} (hk : s.firstOneAfter p k) (h32 : k ≤ 32) :
    ¬∃ j, s.firstOneAfter p j ∧ 32 < j := by
  rintro ⟨j, hj, hlong⟩
  obtain rfl := s.firstOneAfter_unique p j k hj hk
  omega

/-- The three decoding commands share one row of R79, in the order of the decode's own steps (R80). -/
theorem code_followsTable {val : Nat → Value} (hexec : exec i s = .next (s.decoded val))
    (herr : s.firstErrorWhen i = s.firstErrorWhen (.readcodenum 0))
    (hnone : s.noErrorWhen i = s.noErrorWhen (.readcodenum 0)) : FollowsTable i s := by
  have hfail {e : ErrorKind} (hr : s.codeNum s.bitpos.toNat = .error e) : exec i s = .next (s.raise e) := by
    rw [hexec, State.decoded_of_error hr]
  rcases s.codeNum_cases s.bitpos.toNat with ⟨hno, hr⟩ | ⟨k, hk, hlong, hr⟩ | ⟨k, hk, h1, h32, hcut, hr⟩ |
    ⟨k, hk, h32, hfit, hr⟩
  · have hzeros : ¬∃ k, s.firstOneAfter s.bitpos.toNat k ∧ 32 < k :=
      fun ⟨_, hk, _⟩ => State.not_noOneFrom_of_firstOneAfter hk hno
    exact followsTable_of_raise (hfail hr) (herr ▸ ⟨.inl hno, hzeros, id⟩)
  · exact followsTable_of_raise (hfail hr) (herr ▸ ⟨k, hk, hlong⟩)
  · have hzeros := State.not_long_of_firstOneAfter hk h32
    exact followsTable_of_raise (hfail hr) (herr ▸ ⟨.inr ⟨k, hk, h1, hcut⟩, hzeros, id⟩)
  · have hzeros := State.not_long_of_firstOneAfter hk h32
    have hends : ¬s.codeRunsOut := by
      rw [State.codeRunsOut_iff_of_firstOneAfter hk]
      omega
    exact followsTable_of_advance (by rw [hexec, State.decoded_of_ok hr]) (hnone ▸ ⟨id, hzeros, id, hends⟩)

/-- R79 with R80, command by command. -/
theorem exec_followsTable (i : Instr) (s : State) : FollowsTable i s := by
  cases i with
  | init l => exact .inr ⟨⟨id, id, id, id⟩, _, exec_init_eq l s, rfl⟩
  | readbyte a => exact readbyte_followsTable a s
  | readbits n => exact width_followsTable (exec_readbits_eq s n) rfl rfl
  | readflags n => exact readflags_followsTable n s
  | skipbyte a => exact skipbyte_followsTable a s
  | skipbits n => exact width_followsTable (exec_skipbits_eq s n) rfl rfl
  | skiplz a => exact skiplz_followsTable a s
  | readcodenum a => exact code_followsTable (exec_readcodenum_eq a s) rfl rfl
  | readue a => exact code_followsTable (exec_readue_eq a s) rfl rfl
  | readse a => exact code_followsTable (exec_readse_eq a s) rfl rfl
  | readtcodenum _ | readme _ | readte _ => exact followsTable_of_raise (e := .unimplemented) rfl trivial

/-- The rows of R79 that always report Unimplemented report nothing else. -/
theorem unimplementedWhen_excludes (hu : unimplementedWhen i) (s : State) :
    ¬s.invalidArgumentWhen i ∧ ¬s.invalidStateWhen i ∧ ¬s.endOfStreamWhen i := by
  cases i with
  | readtcodenum _ | readme _ | readte _ => exact ⟨id, id, id⟩
  | _ => exact hu.elim

/-- Settles O36: the status a command reports is that of the first condition that applies, and the conditions after
it are ruled out one by one. An illegal word does not wait for the buffer. -/
theorem errorTable : Obligations.ErrorTable := by
  refine ⟨fun i s t hx => ?_, fun s d hr hb hw hd => ?_⟩
  · have hexcl (hu : unimplementedWhen i) := unimplementedWhen_excludes hu s
    rcases exec_followsTable i s with ⟨e, he, h⟩ | ⟨⟨hu, hia, his, hend⟩, u, h, hok⟩
    · obtain rfl := next_inj (hx.symm.trans h)
      cases e with
      | unimplemented =>
        have hu : unimplementedWhen i := he
        obtain ⟨hia, his, hend⟩ := hexcl hu
        simp [ErrorKind.code, hu, hia, his, hend]
      | invalidArgument =>
        have hia : s.invalidArgumentWhen i := he
        have hu : ¬unimplementedWhen i := fun hu => (hexcl hu).1 hia
        simp [ErrorKind.code, hu, hia]
      | invalidState =>
        obtain ⟨his, hia⟩ := he
        have hu : ¬unimplementedWhen i := fun hu => (hexcl hu).2.1 his
        simp [ErrorKind.code, hu, hia, his]
      | endOfStream =>
        obtain ⟨hend, hia, his⟩ := he
        have hu : ¬unimplementedWhen i := fun hu => (hexcl hu).2.2 hend
        simp [ErrorKind.code, hu, hia, his, hend]
      | illegalCommand => exact he.elim
    · obtain rfl := next_inj (hx.symm.trans h)
      simp [hok, hu, hia, his, hend]
  · have hstall : s.edge.stall = false := by
      rwa [State.waits_of_illegal _ _ (by rwa [State.atEdge_cmdLatch])] at hw
    exact ⟨_, step_of_illegal hr hb hstall hd, rfl⟩

end Sys2Proof.Machine
end

section
/-! ### A system of units (R86) -/

namespace Sys2Proof.Machine

/-- An edge of a unit of the system replaces its state by the next one. -/
theorem stepUnit_next {us vs : List State} {k : Nat} (h : stepUnit us k = .next vs) (hk : k < us.length) :
    ∃ t, step us[k] = .next t ∧ vs = us.set k t := by
  rw [stepUnit, List.getElem?_eq_getElem hk] at h
  dsimp only at h
  cases hs : step us[k] with
  | next t =>
    rw [hs] at h
    cases h
    exact ⟨t, rfl, rfl⟩
  | fault r => exact nomatch r
  | refused r =>
    rw [hs] at h
    cases h

/-- Settles O59: one place of the list is replaced. -/
theorem unitsAreIndependent : Obligations.UnitsAreIndependent := by
  intro us vs k h hk
  obtain ⟨t, hstep, rfl⟩ := stepUnit_next h hk
  exact ⟨us.length_set, ⟨us[k], t, List.getElem?_eq_getElem hk, hstep, List.getElem?_set_self hk⟩,
    fun j hj => List.getElem?_set_ne hj.symm⟩

end Sys2Proof.Machine
end

section
/-! ### Handshakes and reset (R88, R91, R92), and the response of a command in flight (R100) -/

namespace Sys2Proof.Machine

variable {s : State}

/-- Settles O48: the state written out is that of `accept`. -/
theorem acceptAtReadyEdge : Obligations.AcceptAtReadyEdge :=
  fun _ hr hb hv => ⟨step_of_offer hr hb hv, step_of_no_offer hr hb hv⟩

/-- An edge looks at the command port only where the unit is ready and not being reset (R91, R88). -/
theorem clockEdge_unaccepted_offer (e : EdgeIn) (v : Bool) (w : Word)
    (h : s.busy = true ∨ s.rspValid = true ∨ e.rst = true) :
    clockEdge { e with cmdValid := v, cmdWord := w } s = clockEdge e s := by
  have hwaits : s.waits { e with cmdValid := v, cmdWord := w } = s.waits e := rfl
  rcases h with hb | hv | hr
  · simp [clockEdge, hb, hwaits]
  · simp [clockEdge, State.idleEdge, hv, hwaits]
  · simp [clockEdge, hr]

/-- Settles O49: the writes before the edge are the same, and the edge does not look at the offer. -/
theorem unacceptedOfferIsForgotten : Obligations.UnacceptedOfferIsForgotten := by
  intro s e es v w h
  have hedge : (State.atEdge { s with inputs := e :: es }).busy = true ∨
      (State.atEdge { s with inputs := e :: es }).rspValid = true ∨ e.rst = true := by simpa using h
  exact clockEdge_unaccepted_offer e v w hedge

/-- The host takes a response that waits (R92). -/
theorem step_of_response_taken (hr : s.edge.rst = false) (hb : s.busy = false) (hv : s.rspValid = true)
    (hready : s.edge.rspReady = true) : step s = .next s.atEdge.takeResponse := by
  simp [step_eq, clockEdge, State.idleEdge, hr, hb, hv, hready]

/-- Settles O50: the state written out is that of `takeResponse`. -/
theorem responseWaitsUntilTaken : Obligations.ResponseWaitsUntilTaken :=
  fun _ hr hb hv => ⟨step_of_response_taken hr hb hv, step_of_response_kept hr hb hv⟩

/-- Reset takes precedence over everything else at an edge (R88). -/
theorem step_of_reset (hr : s.edge.rst = true) : step s = .next s.atEdge.resetRegisters := by
  simp [step_eq, clockEdge, hr]

/-- Settles O53: the state written out is that of `resetRegisters`. -/
theorem resetEdgeClearsEveryRegister : Obligations.ResetEdgeClearsEveryRegister :=
  fun _ hr => step_of_reset hr

/-- With no write to the buffer noted, a command responds at the edge at which it stops waiting: a word that is no
command fails, and no refusal stops one that is. -/
theorem step_responds (hr : s.edge.rst = false) (hb : s.busy = true) (hw : s.atEdge.waits s.edge = false)
    (hbuf : s.atEdge.bufChanged = false) : ∃ t, step s = .next t ∧ t.rspValid = true ∧ t.busy = false := by
  cases hd : decode s.cmdLatch with
  | error d =>
    have hstall : s.edge.stall = false := by
      rwa [State.waits_of_illegal _ _ (by rwa [State.atEdge_cmdLatch])] at hw
    exact ⟨_, step_of_illegal hr hb hstall hd, rfl, rfl⟩
  | ok i =>
    have hread : s.atEdge.readsChangedBuffer i = false := by simp [State.readsChangedBuffer, hbuf]
    obtain ⟨t, hx, hvalid, hbusy, _⟩ := everyCommandCompletes i s.atEdge
    exact ⟨t, (step_of_command hr hb hw hd hread).trans hx, hvalid, hbusy⟩

/-- Where LAT has passed, a command waits for nothing if the platform answers the reads it makes (R38, R99). -/
theorem State.not_waits_of_answered {e : EdgeIn} (hstall : e.stall = false)
    (hans : s.commandReads = true → e.unanswered = false) : s.waits e = false := by
  cases hreads : s.commandReads with
  | true => simp [State.waits, hstall, hans hreads]
  | false => simp [State.waits, hstall, hreads]

/-- Settles O55, by induction on the inputs listed: at each listed edge the command responds or waits, and if it waits
it is in flight as before with one input less; at the edge after them it waits no longer. -/
theorem commandInFlightResponds : Obligations.CommandInFlightResponds := by
  intro s hb hbuf hin hrst hwrites hans
  induction hl : s.inputs generalizing s with
  | nil =>
    have hedge : s.edge = { s.rest with stall := false } := s.edge_of_nil hl
    have hat : s.atEdge = s := s.atEdge_of_rest hl hwrites
    have hr : s.edge.rst = false := by rw [hedge]; exact hrst
    have hw : s.atEdge.waits s.edge = false := by
      rw [hat, hedge]
      exact State.not_waits_of_answered rfl hans
    obtain ⟨t, hstep, hresp⟩ := step_responds hr hb hw (by rw [hat, hbuf])
    exact ⟨1, t, Nat.le_refl 1, run_one_of_next s t hstep, hresp⟩
  | cons e es ih =>
    have hedge : s.edge = e := s.edge_of_cons hl
    rw [hl] at hin
    obtain ⟨⟨hr, he⟩, hes⟩ := List.forall_mem_cons.1 hin
    have hat : s.atEdge = s.popEdge := s.atEdge_of_quiet (by rw [hedge, he])
    have hr' : s.edge.rst = false := by rw [hedge, hr]
    cases hw : s.atEdge.waits s.edge with
    | false =>
      obtain ⟨t, hstep, hresp⟩ := step_responds hr' hb hw (by rw [hat, State.popEdge_bufChanged, hbuf])
      exact ⟨1, t, by simp, run_one_of_next s t hstep, hresp⟩
    | true =>
      have htail : s.popEdge.inputs = es := by rw [State.popEdge_inputs, hl, List.tail_cons]
      obtain ⟨k, t, hk, hrun, hresp⟩ := ih s.popEdge hb hbuf (by rwa [htail]) hrst hwrites
        (by rwa [State.popEdge_commandReads]) htail
      have hstep : step s = .next s.popEdge := (step_of_waits hr' hb hw).trans (by rw [hat])
      exact ⟨k + 1, t, Nat.succ_le_succ hk, (run_succ_of_next s k _ hstep).trans hrun, hresp⟩

end Sys2Proof.Machine
end
